-- ==== Sys2Proof/Word.lean ====
section
/-! DEFINITION. The word and byte types (00_scope.md R9). -/

namespace Sys2Proof

/-- R9: "A *word* is an unsigned 32-bit integer in [0, 2^32)." -/
abbrev Word := BitVec 32

/-- R9: "A *byte* is an unsigned 8-bit integer." -/
abbrev Byte := BitVec 8

end Sys2Proof
end

