-- ==== Sys2Proof/Syntax.lean ====
section
/-! DEFINITION. The host commands (the five rows of spec/opcode_table.json), the host's bus accesses, and the lines of a
host program (30_encoding.md R79, R80). -/

namespace Sys2Proof

/-- The algorithm ALG selects (R21): 0 is MD5, 1 is SHA-256. -/
inductive Alg where
  | md5
  | sha256
  deriving DecidableEq, Repr

/-- The port a word is written to: it alone decides the kind of the word, "never from the bits" (R70). -/
inductive Port where
  | cmd
  | data
  deriving DecidableEq, Repr

/-- One constructor per row of spec/opcode_table.json (R77). -/
inductive Instr where
  | nop
  | init (a : Alg)
  | absorb (b : Byte)
  | final
  | data (w : Word)
  deriving DecidableEq, Repr

/-- The named registers of the window (R51). A reserved offset is none of them. -/
inductive Reg where
  | cmd
  | status
  | data
  | lenLo
  | lenHi
  | blkcnt
  | schedw
  | h (k : Fin 8)
  | v (k : Fin 8)
  | m (k : Fin 16)
  | w (t : Fin 64)
  deriving DecidableEq, Repr

/-- One access of the host's bus: MemRead(CORE_BASE + off, size) or MemWrite(CORE_BASE + off, size, value) (R12). The
address is given relative to CORE_BASE (D2; log entry 5); an offset below 0 or from 0x200 on lies outside the window.
A write of another size than 4 never reaches HASHCORE (R52), so its value is not needed at its own width. -/
inductive Access where
  | read (off : Int) (size : Nat)
  | write (off : Int) (size : Nat) (value : Word)
  deriving DecidableEq, Repr

/-- Where an access begins, relative to CORE_BASE. -/
def Access.off : Access → Int
  | .read o _ => o
  | .write o _ _ => o

/-- How many bytes an access asks for. -/
def Access.size : Access → Nat
  | .read _ n => n
  | .write _ n _ => n

/-- What the host does next: one access, or the polling loop WAIT of R80. -/
inductive HostOp where
  | access (a : Access)
  | wait
  deriving DecidableEq, Repr

/-- A line of a host program: the lines of R79 and the pseudo-instructions of R80. Numbers stand as they are written; a
text is the list of its character codes. RDDIGEST reads the registers of the algorithm it is given (log entry 14). -/
inductive HostLine where
  | nop
  | init (a : Alg)
  | absorb (byte : Nat)
  | final
  | data (word : Nat)
  | wr (r : Reg) (word : Nat)
  | rd (r : Reg)
  | cmd (word : Nat)
  | wait
  | absorbs (text : List Nat)
  | absorbw (word : Nat)
  | hash (a : Alg) (text : List Nat)
  | rdDigest (a : Alg)
  deriving DecidableEq, Repr

end Sys2Proof
end

