-- ==== Sys2Proof/Machine/State.lean ====
section
/-! DEFINITION. The machine's state: the registers of one HASHCORE (10_state.md), and the host's side of the window. -/

namespace Sys2Proof.Machine

/-- PHASE (R34). The reserved value 7 is "never held" (I6; log entry 9). -/
inductive Phase where
  | idle
  | load
  | expand
  | seed
  | round
  | accum
  | done
  deriving DecidableEq, Repr

/-- PSTATE (R31). The reserved value 3 is "never held" (I5; log entry 9). -/
inductive PState where
  | absorb
  | tail2
  | last
  deriving DecidableEq, Repr

/-- ERRCODE (R33, R213). The values 6 and 7 are "never recorded" (I4; log entry 9). -/
inductive ErrCode where
  | noError
  | busy
  | done
  | align
  | illegal
  | noinit
  deriving DecidableEq, Repr

/-- The two agents of R20. -/
inductive Agent where
  | host
  | engine
  deriving DecidableEq, Repr

/-- Every state element of R43's table, under the spec's own names. -/
structure HashCore where
  alg : Alg
  initd : Bool
  h : Vector Word 8
  v : Vector Word 8
  m : Vector Word 16
  w : Vector Word 64
  buf : Vector Byte 64
  fill : BitVec 6
  len : BitVec 64
  pstate : PState
  blkcnt : BitVec 32
  err : Bool
  errcode : ErrCode
  phase : Phase
  rnd : BitVec 7
  deriving DecidableEq, Repr

/-- One HASHCORE and the host's side of its window. The last three fields are the model's own (log entries 1 and 2):
the accesses the host has still to perform, in its program order; the values its reads have returned, newest first; and
the agent that moves at each coming step at which both could (R58). -/
structure State where
  hc : HashCore
  host : List HostOp
  reads : List Word
  sched : List Agent
  deriving DecidableEq, Repr

/-- Why a run stops with a fault. -/
inductive Fault where
  /-- BusFault(addr) with addr = CORE_BASE + off (R52, R219): raised by a host access the window does not admit. Safe: "the
  run is faulted and never final", and no state of HASHCORE changes. -/
  | busFault (off : Int)
  /-- The engine is busy in a combination of PHASE, ALG and RND that no run reaches (R44, R97) and to which the spec gives no
  micro-step: raised by the engine's turn. Safe: the model stops where the spec says nothing (log entry 7). -/
  | sequencerStuck
  deriving DecidableEq, Repr

/-- Why an instruction has no meaning. -/
inductive Refusal where
  /-- The instruction has no meaning in this model yet: raised by an arm of `exec`. No arm does: every row of the table has
  its meaning. Safe: nothing is claimed of it. -/
  | notModelled (mnemonic : String)
  deriving DecidableEq, Repr

/-- R43, R240: every register and buffer 0, PHASE = IDLE, PSTATE = ABSORB, INITD = 0. -/
def HashCore.reset : HashCore where
  alg := .md5
  initd := false
  h := Vector.replicate 8 0#32
  v := Vector.replicate 8 0#32
  m := Vector.replicate 16 0#32
  w := Vector.replicate 64 0#32
  buf := Vector.replicate 64 0#8
  fill := 0#6
  len := 0#64
  pstate := .absorb
  blkcnt := 0#32
  err := false
  errcode := .noError
  phase := .idle
  rnd := 0#7

/-- The machine right after reset: HASHCORE as R43 says, and no host access pending (log entries 1 and 2). -/
def State.reset : State where
  hc := HashCore.reset
  host := []
  reads := []
  sched := []

end Sys2Proof.Machine
end

