-- ==== Sys2Proof/Machine/Regs.lean ====
section
/-! DEFINITION. The one way to read, write and build an array of registers. An index is a plain number; the rules keep it in
range wherever they read or write. -/

namespace Sys2Proof.Machine

/-- Element i of a register array. -/
def rd {w n : Nat} (f : Vector (BitVec w) n) (i : Nat) : BitVec w := f.toList.getD i 0#w

/-- `f[i] <- x`. -/
def wr {w n : Nat} (f : Vector (BitVec w) n) (i : Nat) (x : BitVec w) : Vector (BitVec w) n :=
  ⟨⟨f.toList.set i x⟩, by simp⟩

/-- The array whose element k is `g k`: "for k in 0..n: f[k] <- g(k)" (R12). -/
def tab {w : Nat} (n : Nat) (g : Nat → BitVec w) : Vector (BitVec w) n :=
  ⟨⟨(List.range n).map g⟩, by simp⟩

end Sys2Proof.Machine
end

