-- ==== Sys2Proof/Machine/Constants.lean ====
section
/-! DEFINITION. The constant tables (10_state.md R41): the MD5 K and S tables (44_md5_compression.md R152, R153), the SHA-256 K table
(45_sha256_compression.md R175) and the initial values (46_accumulator_digest.md R190, R191). -/

namespace Sys2Proof.Machine

/-- Entries 0 to 15 of K_MD5 (R152). -/
def kMd5Part0 : List Word :=
  [0xd76aa478#32, 0xe8c7b756#32, 0x242070db#32, 0xc1bdceee#32,
   0xf57c0faf#32, 0x4787c62a#32, 0xa8304613#32, 0xfd469501#32,
   0x698098d8#32, 0x8b44f7af#32, 0xffff5bb1#32, 0x895cd7be#32,
   0x6b901122#32, 0xfd987193#32, 0xa679438e#32, 0x49b40821#32]

/-- Entries 16 to 31 of K_MD5 (R152). -/
def kMd5Part1 : List Word :=
  [0xf61e2562#32, 0xc040b340#32, 0x265e5a51#32, 0xe9b6c7aa#32,
   0xd62f105d#32, 0x02441453#32, 0xd8a1e681#32, 0xe7d3fbc8#32,
   0x21e1cde6#32, 0xc33707d6#32, 0xf4d50d87#32, 0x455a14ed#32,
   0xa9e3e905#32, 0xfcefa3f8#32, 0x676f02d9#32, 0x8d2a4c8a#32]

/-- Entries 32 to 47 of K_MD5 (R152). -/
def kMd5Part2 : List Word :=
  [0xfffa3942#32, 0x8771f681#32, 0x6d9d6122#32, 0xfde5380c#32,
   0xa4beea44#32, 0x4bdecfa9#32, 0xf6bb4b60#32, 0xbebfbc70#32,
   0x289b7ec6#32, 0xeaa127fa#32, 0xd4ef3085#32, 0x04881d05#32,
   0xd9d4d039#32, 0xe6db99e5#32, 0x1fa27cf8#32, 0xc4ac5665#32]

/-- Entries 48 to 63 of K_MD5 (R152). -/
def kMd5Part3 : List Word :=
  [0xf4292244#32, 0x432aff97#32, 0xab9423a7#32, 0xfc93a039#32,
   0x655b59c3#32, 0x8f0ccc92#32, 0xffeff47d#32, 0x85845dd1#32,
   0x6fa87e4f#32, 0xfe2ce6e0#32, 0xa3014314#32, 0x4e0811a1#32,
   0xf7537e82#32, 0xbd3af235#32, 0x2ad7d2bb#32, 0xeb86d391#32]

/-- R152: K_MD5[j]. -/
def kMd5 (j : Nat) : Word := (kMd5Part0 ++ kMd5Part1 ++ kMd5Part2 ++ kMd5Part3).getD j 0#32

/-- R153: the rotate amounts T[q] of quartile q. -/
def shiftRow : Nat → List Nat
  | 0 => [7, 12, 17, 22]
  | 1 => [5, 9, 14, 20]
  | 2 => [4, 11, 16, 23]
  | _ => [6, 10, 15, 21]

/-- R153: `S[j] = T[j div 16][j mod 4]`. -/
def sMd5 (j : Nat) : Nat := (shiftRow (j / 16)).getD (j % 4) 0

/-- Entries 0 to 15 of K_SHA256 (R175). -/
def kSha256Part0 : List Word :=
  [0x428a2f98#32, 0x71374491#32, 0xb5c0fbcf#32, 0xe9b5dba5#32,
   0x3956c25b#32, 0x59f111f1#32, 0x923f82a4#32, 0xab1c5ed5#32,
   0xd807aa98#32, 0x12835b01#32, 0x243185be#32, 0x550c7dc3#32,
   0x72be5d74#32, 0x80deb1fe#32, 0x9bdc06a7#32, 0xc19bf174#32]

/-- Entries 16 to 31 of K_SHA256 (R175). -/
def kSha256Part1 : List Word :=
  [0xe49b69c1#32, 0xefbe4786#32, 0x0fc19dc6#32, 0x240ca1cc#32,
   0x2de92c6f#32, 0x4a7484aa#32, 0x5cb0a9dc#32, 0x76f988da#32,
   0x983e5152#32, 0xa831c66d#32, 0xb00327c8#32, 0xbf597fc7#32,
   0xc6e00bf3#32, 0xd5a79147#32, 0x06ca6351#32, 0x14292967#32]

/-- Entries 32 to 47 of K_SHA256 (R175). -/
def kSha256Part2 : List Word :=
  [0x27b70a85#32, 0x2e1b2138#32, 0x4d2c6dfc#32, 0x53380d13#32,
   0x650a7354#32, 0x766a0abb#32, 0x81c2c92e#32, 0x92722c85#32,
   0xa2bfe8a1#32, 0xa81a664b#32, 0xc24b8b70#32, 0xc76c51a3#32,
   0xd192e819#32, 0xd6990624#32, 0xf40e3585#32, 0x106aa070#32]

/-- Entries 48 to 63 of K_SHA256 (R175). -/
def kSha256Part3 : List Word :=
  [0x19a4c116#32, 0x1e376c08#32, 0x2748774c#32, 0x34b0bcb5#32,
   0x391c0cb3#32, 0x4ed8aa4a#32, 0x5b9cca4f#32, 0x682e6ff3#32,
   0x748f82ee#32, 0x78a5636f#32, 0x84c87814#32, 0x8cc70208#32,
   0x90befffa#32, 0xa4506ceb#32, 0xbef9a3f7#32, 0xc67178f2#32]

/-- R175: K_SHA256[i]. -/
def kSha256 (i : Nat) : Word := (kSha256Part0 ++ kSha256Part1 ++ kSha256Part2 ++ kSha256Part3).getD i 0#32

/-- R190: IV_MD5[0..4], the initial A, B, C and D. -/
def ivMd5 : List Word := [0x67452301#32, 0xefcdab89#32, 0x98badcfe#32, 0x10325476#32]

/-- R191: IV_SHA256[0..8], the initial a to h. -/
def ivSha256 : List Word :=
  [0x6a09e667#32, 0xbb67ae85#32, 0x3c6ef372#32, 0xa54ff53a#32,
   0x510e527f#32, 0x9b05688c#32, 0x1f83d9ab#32, 0x5be0cd19#32]

/-- R198: "IV(0) is IV_MD5 ‖ 0,0,0,0 and IV(1) is IV_SHA256". -/
def iv : Alg → Vector Word 8
  | .md5 => tab 8 fun k => ivMd5.getD k 0#32
  | .sha256 => tab 8 fun k => ivSha256.getD k 0#32

/-- The number n of running registers of an algorithm: 4 (MD5) or 8 (SHA-256) (R192, R193). -/
def regCount : Alg → Nat
  | .md5 => 4
  | .sha256 => 8

end Sys2Proof.Machine
end

