-- ==== Sys2Proof/WellFormed.lean ====
section
/-! DEFINITION. Well-formedness of the syntax: every operand a number its field can hold. -/

namespace Sys2Proof

/-- Every command whose operands have the field's own width is well formed: ALGSEL is one bit (R73), BYTE eight (R74), and
"Every 32-bit value is a valid data word" (R75). The types of the constructors are those widths, so no check is left. -/
def Instr.wf : Instr → Bool
  | .nop => true
  | .init _ => true
  | .absorb _ => true
  | .final => true
  | .data _ => true

/-- A number that fits a 32-bit word (R70). -/
def fitsWord (n : Nat) : Bool := decide (n < 2 ^ 32)

/-- A number that fits the byte field BYTE (R74). -/
def fitsByte (n : Nat) : Bool := decide (n < 2 ^ 8)

/-- "Text is taken as ASCII bytes" (R80). -/
def asciiText (text : List Nat) : Bool := text.all fun c => decide (c < 2 ^ 7)

/-- A program line is well formed when its numbers fit the fields they are put in (R79, R80). -/
def HostLine.wf : HostLine → Bool
  | .nop => true
  | .init _ => true
  | .absorb byte => fitsByte byte
  | .final => true
  | .data word => fitsWord word
  | .wr _ word => fitsWord word
  | .rd _ => true
  | .cmd word => fitsWord word
  | .wait => true
  | .absorbs text => asciiText text
  | .absorbw word => fitsWord word
  | .hash _ text => asciiText text
  | .rdDigest _ => true

end Sys2Proof
end

