-- ==== Sys2Proof/Decode.lean ====
section
/-! DEFINITION. The encoding of the host commands (30_encoding.md): the opcode table, the decoder of each port, and the
encoder. -/

namespace Sys2Proof

/-- The value of the 1-bit register ALG and of the operand ALGSEL (R21, R73). -/
def Alg.bit : Alg → BitVec 1
  | .md5 => 0#1
  | .sha256 => 1#1

/-- The algorithm a value of ALGSEL selects (R73). -/
def Alg.ofBit (b : BitVec 1) : Alg := if b = 0#1 then .md5 else .sha256

/-- R71: OPC is bits 31:24 of a command word. -/
def opc (w : Word) : BitVec 8 := w.extractLsb' 24 8

/-- R71: OPND is bits 23:0 of a command word. -/
def opnd (w : Word) : BitVec 24 := w.extractLsb' 0 24

/-- R76: `ALGSEL = cmd[0]`. -/
def algsel (w : Word) : BitVec 1 := w.extractLsb' 0 1

/-- R76: `BYTE = cmd[7:0]`. -/
def byteOperand (w : Word) : Byte := w.extractLsb' 0 8

/-- A row of the opcode map of R77: the port, and the match and mask over the 32-bit word. -/
structure OpRow where
  mnemonic : String
  port : Port
  pattern : Word
  mask : Word
  deriving DecidableEq, Repr

def nopRow : OpRow := ⟨"NOP", .cmd, 0x00000000#32, 0xFFFFFFFF#32⟩
def initRow : OpRow := ⟨"INIT", .cmd, 0x01000000#32, 0xFFFFFFFE#32⟩
def absorbRow : OpRow := ⟨"ABSORB", .cmd, 0x02000000#32, 0xFFFFFF00#32⟩
def finalRow : OpRow := ⟨"FINAL", .cmd, 0x03000000#32, 0xFFFFFFFF#32⟩
def dataRow : OpRow := ⟨"DATA", .data, 0x00000000#32, 0x00000000#32⟩

/-- R77: "A word w selects a row when `(w & mask) = match`." -/
def OpRow.selects (r : OpRow) (w : Word) : Bool := (w &&& r.mask) == r.pattern

/-- The four rows of the CMD port (R77). -/
def cmdRows : List OpRow := [nopRow, initRow, absorbRow, finalRow]

/-- Why a CMD word is ILLEGAL: the two cases of R78. -/
inductive DecodeError where
  /-- "OPC is in 0x04 to 0xFF. These opcodes are reserved." -/
  | reservedOpcode
  /-- "OPC is 0x00 to 0x03 and a bit its format requires to be 0 is 1." -/
  | reservedOperandBit
  deriving DecidableEq, Repr

/-- R77's `Decode(w)`, total on all 2^32 words: one of the four commands, or ILLEGAL (here: by which case of R78). -/
def decodeCmd (w : Word) : Except DecodeError Instr :=
  if nopRow.selects w then .ok .nop
  else if initRow.selects w then .ok (.init (Alg.ofBit (algsel w)))
  else if absorbRow.selects w then .ok (.absorb (byteOperand w))
  else if finalRow.selects w then .ok .final
  else if opc w < 0x04#8 then .error .reservedOperandBit
  else .error .reservedOpcode

/-- The decoder: "The port written decides the kind" (R70); every DATA word is valid (R75). -/
def decode (p : Port) (w : Word) : Except DecodeError Instr :=
  match p with
  | .cmd => decodeCmd w
  | .data => .ok (.data w)

/-- A command word from its two fields (R71). -/
def cmdWord (code : BitVec 8) (operand : BitVec 24) : Word := code ++ operand

/-- The encoder: the port and the word of each command (R72 to R75, R77). -/
def encode : Instr → Port × Word
  | .nop => (.cmd, cmdWord 0x00#8 0#24)
  | .init a => (.cmd, cmdWord 0x01#8 (0#23 ++ a.bit))
  | .absorb b => (.cmd, cmdWord 0x02#8 (0#16 ++ b))
  | .final => (.cmd, cmdWord 0x03#8 0#24)
  | .data w => (.data, w)

/-- The row of the opcode map an instruction belongs to (R77). -/
def Instr.row : Instr → OpRow
  | .nop => nopRow
  | .init _ => initRow
  | .absorb _ => absorbRow
  | .final => finalRow
  | .data _ => dataRow

/-- Which port a bare word of the opcode table is taken to be written to. The table tells its CMD rows from its DATA row by
the port, which is no bit of the word; read in the table's own order, a word that a CMD row selects is a CMD word, and any
other word is selected by the DATA row alone (log entry 4). Only `decodeTableWord` and `State.withFetchWord` use this: a
word the host WRITES goes to the port of its offset. -/
def tablePort (w : Word) : Port := if cmdRows.any (·.selects w) then .cmd else .data

/-- The low nbits bits of w as an instruction word. -/
def tableWord (nbits w : Nat) : Word := BitVec.ofNat 32 (w % 2 ^ nbits)

/-- The instruction the decoder reads from a word of the opcode table (log entry 4). -/
def decodeTableWord (nbits w : Nat) : Option Instr :=
  match decode (tablePort (tableWord nbits w)) (tableWord nbits w) with
  | .ok i => some i
  | .error _ => none

end Sys2Proof
end

