-- ==== Sys2Proof/Machine/Flags.lean ====
section
/-! DEFINITION. The codes of the control registers, the derived flags and STATUS (10_state.md R31, R34, R37, R38; 60_exceptions.md
R213). -/

namespace Sys2Proof.Machine

/-- The encoding of PHASE (R34). -/
def Phase.code : Phase → BitVec 3
  | .idle => 0#3
  | .load => 1#3
  | .expand => 2#3
  | .seed => 3#3
  | .round => 4#3
  | .accum => 5#3
  | .done => 6#3

/-- The encoding of PSTATE (R31). -/
def PState.code : PState → BitVec 2
  | .absorb => 0#2
  | .tail2 => 1#2
  | .last => 2#2

/-- The error codes (R213). -/
def ErrCode.code : ErrCode → BitVec 3
  | .noError => 0#3
  | .busy => 1#3
  | .done => 2#3
  | .align => 3#3
  | .illegal => 4#3
  | .noinit => 5#3

/-- R37: `BUSY = (PHASE ∈ {LOAD, EXPAND, SEED, ROUND, ACCUM})`. -/
def Phase.busy : Phase → Bool
  | .idle => false
  | .load => true
  | .expand => true
  | .seed => true
  | .round => true
  | .accum => true
  | .done => false

/-- STATUS.BUSY (R37). -/
def HashCore.busy (c : HashCore) : Bool := c.phase.busy

/-- STATUS.DONE (R37): `DONE = (PHASE = DONE)`. -/
def HashCore.isDone (c : HashCore) : Bool := decide (c.phase = .done)

/-- A flag as one bit. -/
def flagBit (b : Bool) : BitVec 1 := if b then 1#1 else 0#1

/-- R38: `STATUS = zext_32(PSTATE ‖ PHASE ‖ 0b0 ‖ RND ‖ 0b00 ‖ FILL ‖ ERRCODE ‖ ALG ‖ INITD ‖ ERR ‖ DONE ‖ BUSY)`. -/
def HashCore.status (c : HashCore) : Word :=
  (c.pstate.code ++ c.phase.code ++ 0#1 ++ c.rnd ++ 0#2 ++ c.fill ++ c.errcode.code ++ c.alg.bit
    ++ flagBit c.initd ++ flagBit c.err ++ flagBit c.isDone ++ flagBit c.busy).setWidth 32

end Sys2Proof.Machine
end

