-- ==== Sys2Proof/Config.lean ====
section
/-! DEFINITION. The parameters of the hardware envelope (00_scope.md R6). The two the spec leaves OPEN have no body:
no proof can see a value of them. -/

namespace Sys2Proof.Config

/-- R6: the window is 0x200 bytes. -/
def windowBytes : Nat := 0x200

/-- CORE_BASE / 0x200, OPEN (R6, I15): one base for each HASHCORE of a system (R223). -/
opaque coreBaseIndex : Nat → Nat

/-- CORE_BASE of the k-th HASHCORE: "must be a multiple of 0x200" (R6), so it is written as one. -/
def coreBase (k : Nat) : Nat := windowBytes * coreBaseIndex k

/-- NUM_INSTANCES, OPEN (R6, I16): how many independent HASHCOREs a system has. -/
opaque numCores : Nat

end Sys2Proof.Config
end

