-- ==== Sys2Proof/Machine/Operands.lean ====
section
/-! DEFINITION. Byte order (00_scope.md R11), the byte lanes of a data word (R76), and the register map (20_memory.md R51). -/

namespace Sys2Proof.Machine

/-- A byte placed n bits up in a word. -/
def byteAt (b : Byte) (n : Nat) : Word := b.setWidth 32 <<< n

/-- R11: `LE32(B, i) = B[i] | B[i+1] << 8 | B[i+2] << 16 | B[i+3] << 24`. -/
def le32 (b : Vector Byte 64) (i : Nat) : Word :=
  byteAt (rd b i) 0 ||| byteAt (rd b (i + 1)) 8 ||| byteAt (rd b (i + 2)) 16 ||| byteAt (rd b (i + 3)) 24

/-- R11: `BE32(B, i) = B[i] << 24 | B[i+1] << 16 | B[i+2] << 8 | B[i+3]`. -/
def be32 (b : Vector Byte 64) (i : Nat) : Word :=
  byteAt (rd b i) 24 ||| byteAt (rd b (i + 1)) 16 ||| byteAt (rd b (i + 2)) 8 ||| byteAt (rd b (i + 3)) 0

/-- Byte n of a value, byte 0 the least significant: bits 8n+7:8n. -/
def byteOf {k : Nat} (x : BitVec k) (n : Nat) : Byte := x.extractLsb' (8 * n) 8

/-- R11: `LEbytes_n(v)`, the least significant byte first. -/
def leBytes {k : Nat} (n : Nat) (x : BitVec k) : List Byte := (List.range n).map (byteOf x)

/-- R11: `BEbytes_n(v)`, the most significant byte first. -/
def beBytes {k : Nat} (n : Nat) (x : BitVec k) : List Byte := (leBytes n x).reverse

/-- R75, R76: the bytes of a data word in the order they are absorbed, `Bn = w[8n+7:8n]` for n = 0..4. -/
def dataBytes (w : Word) : List Byte := leBytes 4 w

/-- The offset from CORE_BASE of a named register (R51). -/
def regOffset : Reg → Nat
  | .cmd => 0x000
  | .status => 0x004
  | .data => 0x008
  | .lenLo => 0x010
  | .lenHi => 0x014
  | .blkcnt => 0x018
  | .schedw => 0x01C
  | .h k => 0x020 + 4 * k.val
  | .v k => 0x040 + 4 * k.val
  | .m k => 0x080 + 4 * k.val
  | .w t => 0x100 + 4 * t.val

/-- The register at an admitted offset; none at the reserved offsets 0x00C, 0x060 to 0x07C and 0x0C0 to 0x0FC (R51, R55). -/
def regAt (off : Nat) : Option Reg :=
  if off = 0x000 then some .cmd
  else if off = 0x004 then some .status
  else if off = 0x008 then some .data
  else if off = 0x010 then some .lenLo
  else if off = 0x014 then some .lenHi
  else if off = 0x018 then some .blkcnt
  else if off = 0x01C then some .schedw
  else if 0x020 ≤ off ∧ off < 0x040 then some (.h (Fin.ofNat 8 ((off - 0x020) / 4)))
  else if 0x040 ≤ off ∧ off < 0x060 then some (.v (Fin.ofNat 8 ((off - 0x040) / 4)))
  else if 0x080 ≤ off ∧ off < 0x0C0 then some (.m (Fin.ofNat 16 ((off - 0x080) / 4)))
  else if 0x100 ≤ off ∧ off < 0x200 then some (.w (Fin.ofNat 64 ((off - 0x100) / 4)))
  else none

/-- R52: the window admits only 32-bit accesses whose address is a multiple of 4 and lies in the window. CORE_BASE is a
multiple of 0x200, so the address is a multiple of 4 exactly when the offset is. -/
def admits (a : Access) : Bool :=
  decide (a.size = 4) && decide (a.off % 4 = 0) && decide (0 ≤ a.off) && decide (a.off < (Config.windowBytes : Int))

/-- The host address of an access to the k-th HASHCORE: CORE_BASE + off (R12). -/
def accessAddr (k : Nat) (a : Access) : Int := (Config.coreBase k : Int) + a.off

end Sys2Proof.Machine
end

