-- ==== Sys2Proof/Machine/Ops.lean ====
section
/-! DEFINITION. The operations the commands share: the error primitive and its clearing (60_exceptions.md R212, R217), the
admission check (40_host_commands.md R91), and taking message bytes into the block buffer (10_state.md R29, R30). -/

namespace Sys2Proof.Machine

/-- The state with another HASHCORE in it: what a command does to State. -/
def State.setHc (s : State) (c : HashCore) : State := { s with hc := c }

/-- The error primitive `raise Err(code)` (R212): the first error since the last INIT is kept, and nothing else is written.
It is this hardware's whole exception entry: "It sets ERR and ERRCODE and leaves the rejected command without effect"
(R216). -/
def raiseErr (code : ErrCode) (c : HashCore) : HashCore :=
  if c.err then c else { c with err := true, errcode := code }

/-- The clearing of the error record, done by INIT alone (R217). -/
def clearErr (c : HashCore) : HashCore := { c with err := false, errcode := .noError }

/-- R91's `DataCheck()`: the error it raises, or none when it passes. -/
def dataCheck (c : HashCore) : Option ErrCode :=
  if c.initd = false then some .noinit
  else if c.busy = true then some .busy
  else if c.isDone = true then some .done
  else none

/-- R95: DataCheck, and after it the alignment check of DATA (R214). -/
def dataWordCheck (c : HashCore) : Option ErrCode :=
  match dataCheck c with
  | some e => some e
  | none => if c.fill.toNat % 4 ≠ 0 then some .align else none

/-- A command with a check in front: the error raised, or the command's effect. "a command that raises an error changes no
state except ERR and ERRCODE" (R90). -/
def checked (check : Option ErrCode) (effect : HashCore) (s : State) : Host.Outcome State Fault Refusal :=
  match check with
  | some e => .next (s.setHc (raiseErr e s.hc))
  | none => .next (s.setHc effect)

/-- The bookkeeping of n bytes taken (R94, R95): LEN counts them, and when they complete the block it goes to the engine in
the same command with FILL set to 0 (R29). -/
def countBytes (n : Nat) (c : HashCore) : HashCore :=
  if c.fill.toNat + n = 64 then
    { c with len := c.len + BitVec.ofNat 64 n, fill := 0#6, phase := .load }
  else
    { c with len := c.len + BitVec.ofNat 64 n, fill := c.fill + BitVec.ofNat 6 n }

/-- `for n in 0..: BUF[i + n] <- bytes[n]`. -/
def wrBytes (b : Vector Byte 64) (i : Nat) : List Byte → Vector Byte 64
  | [] => b
  | x :: xs => wrBytes (wr b i x) (i + 1) xs

/-- Message bytes taken into BUF at index FILL (R28). -/
def takeBytes (bytes : List Byte) (c : HashCore) : HashCore :=
  countBytes bytes.length { c with buf := wrBytes c.buf c.fill.toNat bytes }

end Sys2Proof.Machine
end

