-- ==== Sys2Proof/Machine/Padder.lean ====
section
/-! DEFINITION. The message padder (41_padding.md). -/

namespace Sys2Proof.Machine

/-- R121: the 8 bytes of `bl = (LEN << 3) mod 2^64`, little-endian for MD5 and big-endian for SHA-256. -/
def lenField (alg : Alg) (len : BitVec 64) : List Byte :=
  match alg with
  | .md5 => leBytes 8 (len <<< 3)
  | .sha256 => beBytes 8 (len <<< 3)

/-- BUF as `PadTail` leaves it when f = FILL ≤ 55 (R123): the message bytes, 0x80, zeros up to index 55, the length. -/
def lastTail (alg : Alg) (len : BitVec 64) (f : Nat) (buf : Vector Byte 64) : Vector Byte 64 :=
  tab 64 fun i =>
    if i < f then rd buf i
    else if i = f then 0x80#8
    else if i < 56 then 0x00#8
    else (lenField alg len).getD (i - 56) 0#8

/-- BUF as `PadTail` leaves it when 56 ≤ f ≤ 63 (R123): the message bytes, 0x80, zeros to the end. -/
def firstTail (f : Nat) (buf : Vector Byte 64) : Vector Byte 64 :=
  tab 64 fun i =>
    if i < f then rd buf i
    else if i = f then 0x80#8
    else 0x00#8

/-- BUF as `PadSecond` leaves it (R124): 56 zeros and the length; no 0x80 byte. -/
def secondTail (alg : Alg) (len : BitVec 64) : Vector Byte 64 :=
  tab 64 fun i => if i < 56 then 0x00#8 else (lenField alg len).getD (i - 56) 0#8

/-- R123: `PadTail()`, executed by FINAL. -/
def padTail (c : HashCore) : HashCore :=
  if c.fill.toNat ≤ 55 then
    { c with buf := lastTail c.alg c.len c.fill.toNat c.buf, pstate := .last }
  else
    { c with buf := firstTail c.fill.toNat c.buf, pstate := .tail2 }

/-- R124: `PadSecond()`, executed by E_ACCUM. -/
def padSecond (c : HashCore) : HashCore :=
  { c with buf := secondTail c.alg c.len, pstate := .last }

/-- R122: the closed form `z = (55 − L) mod 64` of R120's zero count. -/
def padZeros (n : Nat) : Nat := (119 - n % 64) % 64

/-- R120: `PAD(alg, msg) = msg ‖ [0x80] ‖ zeros(z) ‖ LENFIELD(alg, L)`. -/
def pad (alg : Alg) (msg : List Byte) : List Byte :=
  msg ++ [0x80#8] ++ List.replicate (padZeros msg.length) 0x00#8 ++ lenField alg (BitVec.ofNat 64 msg.length)

/-- The 64-byte blocks of a byte sequence whose length is a multiple of 64, block 0 first (R125). -/
def blocksOf (bytes : List Byte) : List (Vector Byte 64) :=
  (List.range (bytes.length / 64)).map fun k => tab 64 fun i => bytes.getD (64 * k + i) 0#8

end Sys2Proof.Machine
end

