-- ==== Sys2Proof/Machine/Commands.lean ====
section
/-! DEFINITION. The meanings of the host commands (40_host_commands.md R92 to R96). -/

namespace Sys2Proof.Machine

/-- R93: the registers as INIT leaves them. It reads nothing of the state before. -/
def initCore (a : Alg) : HashCore where
  alg := a
  initd := true
  h := iv a
  v := Vector.replicate 8 0#32
  m := Vector.replicate 16 0#32
  w := Vector.replicate 64 0#32
  buf := Vector.replicate 64 0#8
  fill := 0#6
  len := 0#64
  pstate := .absorb
  blkcnt := 0#32
  err := false
  errcode := .noError
  phase := .idle
  rnd := 0#7

/-- R96: the effect of an accepted FINAL, "PadTail(); FILL <- 0; PHASE <- LOAD". -/
def finalCore (c : HashCore) : HashCore := { padTail c with fill := 0#6, phase := .load }

/-- R92: NOP, "(no state change)". -/
def execNop (s : State) : Host.Outcome State Fault Refusal := .next s

/-- R93: INIT, accepted in every phase; it also clears the error record (R217). -/
def execInit (a : Alg) (s : State) : Host.Outcome State Fault Refusal := .next (s.setHc (clearErr (initCore a)))

/-- R94: ABSORB, one message byte. -/
def execAbsorb (b : Byte) (s : State) : Host.Outcome State Fault Refusal :=
  checked (dataCheck s.hc) (takeBytes [b] s.hc) s

/-- R95: DATA, four message bytes, the least significant first. -/
def execData (w : Word) (s : State) : Host.Outcome State Fault Refusal :=
  checked (dataWordCheck s.hc) (takeBytes (dataBytes w) s.hc) s

/-- R96: FINAL. -/
def execFinal (s : State) : Host.Outcome State Fault Refusal :=
  checked (dataCheck s.hc) (finalCore s.hc) s

end Sys2Proof.Machine
end

