-- ==== Sys2Proof/Machine/Scheduler.lean ====
section
/-! DEFINITION. The MD5 message scheduler (42_md5_scheduler.md) and the SHA-256 message scheduler (43_sha256_scheduler.md). -/

namespace Sys2Proof.Machine

/-- R131: the message-word index of MD5 round j, by quartile. -/
def md5Index (j : Nat) : Nat :=
  match j / 16 with
  | 0 => j
  | 1 => (5 * j + 1) % 16
  | 2 => (3 * j + 5) % 16
  | _ => (7 * j) % 16

/-- R141: `σ0(x) = rotr(x, 7) ^ rotr(x, 18) ^ (x >> 3)`. -/
def smallSigma0 (x : Word) : Word := x.rotateRight 7 ^^^ x.rotateRight 18 ^^^ x >>> 3

/-- R141: `σ1(x) = rotr(x, 17) ^ rotr(x, 19) ^ (x >> 10)`. -/
def smallSigma1 (x : Word) : Word := x.rotateRight 17 ^^^ x.rotateRight 19 ^^^ x >>> 10

/-- R142: `W[t] = W[t-16] + σ0(W[t-15]) + W[t-7] + σ1(W[t-2])` for 16 ≤ t ≤ 63. -/
def scheduleWord (w : Vector Word 64) (t : Nat) : Word :=
  rd w (t - 16) + smallSigma0 (rd w (t - 15)) + rd w (t - 7) + smallSigma1 (rd w (t - 2))

/-- The sixteen words of a block, little-endian (R130). -/
def md5Words (buf : Vector Byte 64) : Vector Word 16 := tab 16 fun k => le32 buf (4 * k)

/-- The sixteen words of a block, big-endian (R140). -/
def sha256Words (buf : Vector Byte 64) : Vector Word 16 := tab 16 fun k => be32 buf (4 * k)

/-- R130: E_LOAD_MD5. RND and W are not written. -/
def loadMd5 (c : HashCore) : HashCore := { c with m := md5Words c.buf, phase := .seed }

/-- R140: E_LOAD_SHA256. W[16..64] keeps the previous block's values. -/
def loadSha256 (c : HashCore) : HashCore :=
  { c with
    m := sha256Words c.buf
    w := tab 64 fun t => if t < 16 then be32 c.buf (4 * t) else rd c.w t
    rnd := 16#7
    phase := .expand }

/-- R143: E_EXPAND, the schedule word t = RND. -/
def expandStep (c : HashCore) : HashCore :=
  { c with
    w := wr c.w c.rnd.toNat (scheduleWord c.w c.rnd.toNat)
    rnd := c.rnd + 1#7
    phase := if c.rnd.toNat = 63 then .seed else c.phase }

/-- R40: SCHEDW, the schedule word delivered to the round about to execute (R133, R145); 0 outside ROUND. -/
def HashCore.schedw (c : HashCore) : Word :=
  match c.phase with
  | .round =>
    match c.alg with
    | .md5 => rd c.m (md5Index c.rnd.toNat)
    | .sha256 => rd c.w c.rnd.toNat
  | .idle => 0#32
  | .load => 0#32
  | .expand => 0#32
  | .seed => 0#32
  | .accum => 0#32
  | .done => 0#32

end Sys2Proof.Machine
end

