-- ==== Sys2Proof/Machine/Compression.lean ====
section
/-! DEFINITION. The MD5 compression engine (44_md5_compression.md) and the SHA-256 compression engine (45_sha256_compression.md). -/

namespace Sys2Proof.Machine

/-- The MD5 transient registers (R150): a = V[0], b = V[1], c = V[2], d = V[3]. -/
structure Md5Regs where
  a : Word
  b : Word
  c : Word
  d : Word
  deriving DecidableEq, Repr

/-- The SHA-256 transient registers (R170): a = V[0] to h = V[7]. -/
structure Sha256Regs where
  a : Word
  b : Word
  c : Word
  d : Word
  e : Word
  f : Word
  g : Word
  h : Word
  deriving DecidableEq, Repr

/-- R150: the MD5 registers held in an array of eight. -/
def Md5Regs.get (v : Vector Word 8) : Md5Regs := ⟨rd v 0, rd v 1, rd v 2, rd v 3⟩

/-- The array with the MD5 registers written; elements 4 to 7 are "not touched" (R154). -/
def Md5Regs.put (r : Md5Regs) (v : Vector Word 8) : Vector Word 8 :=
  wr (wr (wr (wr v 0 r.a) 1 r.b) 2 r.c) 3 r.d

/-- R170: the SHA-256 registers held in an array of eight. -/
def Sha256Regs.get (v : Vector Word 8) : Sha256Regs :=
  ⟨rd v 0, rd v 1, rd v 2, rd v 3, rd v 4, rd v 5, rd v 6, rd v 7⟩

/-- The SHA-256 registers as an array of eight (R170). -/
def Sha256Regs.toArray (r : Sha256Regs) : Vector Word 8 := #v[r.a, r.b, r.c, r.d, r.e, r.f, r.g, r.h]

/-- R151: `F(b,c,d) = (b & c) | (~b & d)`, rounds 0–15. -/
def md5F (b c d : Word) : Word := (b &&& c) ||| (~~~b &&& d)

/-- R151: `G(b,c,d) = (d & b) | (~d & c)`, rounds 16–31. -/
def md5G (b c d : Word) : Word := (d &&& b) ||| (~~~d &&& c)

/-- R151: `H(b,c,d) = b ^ c ^ d`, rounds 32–47. -/
def md5H (b c d : Word) : Word := b ^^^ c ^^^ d

/-- R151: `I(b,c,d) = c ^ (b | ~d)`, rounds 48–63. -/
def md5I (b c d : Word) : Word := c ^^^ (b ||| ~~~d)

/-- R151: the round function of round j, chosen by its quartile q = j div 16. -/
def md5Fn (j : Nat) (b c d : Word) : Word :=
  match j / 16 with
  | 0 => md5F b c d
  | 1 => md5G b c d
  | 2 => md5H b c d
  | _ => md5I b c d

/-- R154: the sum `f + a + K_MD5[j] + M[g(j)]`, for the scheduled word x = M[g(j)]. -/
def md5Sum (j : Nat) (x : Word) (r : Md5Regs) : Word := md5Fn j r.b r.c r.d + r.a + kMd5 j + x

/-- R154: the V update of round j, "(a,b,c,d) ← (d, b_new, b, c)". -/
def md5Round (j : Nat) (x : Word) (r : Md5Regs) : Md5Regs :=
  ⟨r.d, r.b + (md5Sum j x r).rotateLeft (sMd5 j), r.b, r.c⟩

/-- R171: `Σ1(e) = rotr(e, 6) ^ rotr(e, 11) ^ rotr(e, 25)`. -/
def bigSigma1 (e : Word) : Word := e.rotateRight 6 ^^^ e.rotateRight 11 ^^^ e.rotateRight 25

/-- R172: `Ch(e, f, g) = (e & f) ^ (~e & g)`. -/
def choice (e f g : Word) : Word := (e &&& f) ^^^ (~~~e &&& g)

/-- R173: `Σ0(a) = rotr(a, 2) ^ rotr(a, 13) ^ rotr(a, 22)`. -/
def bigSigma0 (a : Word) : Word := a.rotateRight 2 ^^^ a.rotateRight 13 ^^^ a.rotateRight 22

/-- R174: `Maj(a, b, c) = (a & b) ^ (a & c) ^ (b & c)`. -/
def majority (a b c : Word) : Word := (a &&& b) ^^^ (a &&& c) ^^^ (b &&& c)

/-- R176: temp1, for the scheduled word x = W[i]. -/
def sha256Temp1 (i : Nat) (x : Word) (r : Sha256Regs) : Word :=
  r.h + bigSigma1 r.e + choice r.e r.f r.g + kSha256 i + x

/-- R176: temp2. -/
def sha256Temp2 (r : Sha256Regs) : Word := bigSigma0 r.a + majority r.a r.b r.c

/-- R176: the V update of round i. -/
def sha256Round (i : Nat) (x : Word) (r : Sha256Regs) : Sha256Regs :=
  { a := sha256Temp1 i x r + sha256Temp2 r
    b := r.a
    c := r.b
    d := r.c
    e := r.d + sha256Temp1 i x r
    f := r.e
    g := r.f
    h := r.g }

/-- The sequencing part of a round step (R154, R176): "RND <- j + 1; if j = 63 then PHASE <- ACCUM". -/
def nextRound (c : HashCore) : HashCore :=
  { c with rnd := c.rnd + 1#7, phase := if c.rnd.toNat = 63 then .accum else c.phase }

/-- R154: E_ROUND_MD5, round j = RND. -/
def roundMd5 (c : HashCore) : HashCore :=
  nextRound { c with
    v := (md5Round c.rnd.toNat (rd c.m (md5Index c.rnd.toNat)) (Md5Regs.get c.v)).put c.v }

/-- R176: E_ROUND_SHA256, round i = RND. -/
def roundSha256 (c : HashCore) : HashCore :=
  nextRound { c with
    v := (sha256Round c.rnd.toNat (rd c.w c.rnd.toNat) (Sha256Regs.get c.v)).toArray }

end Sys2Proof.Machine
end

