-- ==== Sys2Proof/Machine/Accumulator.lean ====
section
/-! DEFINITION. The state accumulator and the digest (46_accumulator_digest.md). -/

namespace Sys2Proof.Machine

/-- R192: E_SEED, `V[k] <- H[k]` for k in 0..n. -/
def seedStep (c : HashCore) : HashCore :=
  { c with
    v := tab 8 fun k => if k < regCount c.alg then rd c.h k else rd c.v k
    rnd := 0#7
    phase := .round }

/-- R193: `H[k] + V[k]` for k in 0..n, the other registers as they are. -/
def addRegs (alg : Alg) (h v : Vector Word 8) : Vector Word 8 :=
  tab 8 fun k => if k < regCount alg then rd h k + rd v k else rd h k

/-- R194: the sequencing part of E_ACCUM, by PSTATE. -/
def afterBlock (c : HashCore) : HashCore :=
  match c.pstate with
  | .tail2 => { padSecond c with phase := .load }
  | .last => { c with pstate := .absorb, phase := .done }
  | .absorb => { c with phase := .idle }

/-- R193, R194: E_ACCUM. The sequencing part reads no register the accumulation part writes. -/
def accumStep (c : HashCore) : HashCore :=
  afterBlock { c with h := addRegs c.alg c.h c.v, blkcnt := c.blkcnt + 1#32 }

/-- R200: the MD5 case of COMPRESS, on H[0..4]. -/
def compressMd5 (h : Vector Word 8) (blk : Vector Byte 64) : Vector Word 8 :=
  let m := md5Words blk
  let r := (List.range 64).foldl (fun r j => md5Round j (rd m (md5Index j)) r) (Md5Regs.get h)
  addRegs .md5 h (r.put h)

/-- R200: the schedule W of a block, the sixteen direct words and R142 for t in 16..64. -/
def sha256Schedule (blk : Vector Byte 64) : Vector Word 64 :=
  (List.range 48).foldl (fun w k => wr w (k + 16) (scheduleWord w (k + 16)))
    (tab 64 fun t => if t < 16 then be32 blk (4 * t) else 0#32)

/-- R200: the SHA-256 case of COMPRESS, on H[0..8]. -/
def compressSha256 (h : Vector Word 8) (blk : Vector Byte 64) : Vector Word 8 :=
  let w := sha256Schedule blk
  let r := (List.range 64).foldl (fun r i => sha256Round i (rd w i) r) (Sha256Regs.get h)
  addRegs .sha256 h r.toArray

/-- R200: the compression function, a pure transformation of (State, Block) to State. -/
def compress (alg : Alg) (h : Vector Word 8) (blk : Vector Byte 64) : Vector Word 8 :=
  match alg with
  | .md5 => compressMd5 h blk
  | .sha256 => compressSha256 h blk

/-- R198: `FOLD(COMPRESS(alg, ·, ·), IV(alg), blocks of PAD(alg, msg))`, block 0 first. -/
def digestRegs (alg : Alg) (msg : List Byte) : Vector Word 8 :=
  (blocksOf (pad alg msg)).foldl (compress alg) (iv alg)

/-- R196: the digest bytes, each register little-endian for MD5 and big-endian for SHA-256, in index order. -/
def digestBytes (alg : Alg) (h : Vector Word 8) : List Byte :=
  match alg with
  | .md5 => (List.range 4).flatMap fun k => leBytes 4 (rd h k)
  | .sha256 => (List.range 8).flatMap fun k => beBytes 4 (rd h k)

/-- R197: `"0123456789abcdef"[n]`. -/
def hexChar (n : Nat) : Char :=
  ['0', '1', '2', '3', '4', '5', '6', '7', '8', '9', 'a', 'b', 'c', 'd', 'e', 'f'].getD n '0'

/-- R197: HEX, the high nibble first. -/
def hexText (bytes : List Byte) : List Char :=
  bytes.flatMap fun x => [hexChar (x.toNat >>> 4), hexChar (x &&& 0x0F#8).toNat]

/-- R197: `DIGEST_TEXT(alg, H) = HEX(DIGEST_BYTES(alg, H))`. -/
def digestText (alg : Alg) (h : Vector Word 8) : List Char := hexText (digestBytes alg h)

end Sys2Proof.Machine
end

