-- ==== Sys2Proof/Machine/Engine.lean ====
section
/-! DEFINITION. The engine: the micro-step of each PHASE (40_host_commands.md R97). -/

namespace Sys2Proof.Machine

/-- R97's table: the micro-step the engine has in a state. None in IDLE and DONE, where "the engine has no step"; none
either in the combinations no run reaches (R44), to which the spec gives no step: EXPAND under MD5, EXPAND with t outside
16 to 63, ROUND with j above 63. -/
def microStep (c : HashCore) : Option HashCore :=
  match c.phase, c.alg with
  | .idle, _ => none
  | .load, .md5 => some (loadMd5 c)
  | .load, .sha256 => some (loadSha256 c)
  | .expand, .md5 => none
  | .expand, .sha256 => if 16 ≤ c.rnd.toNat ∧ c.rnd.toNat ≤ 63 then some (expandStep c) else none
  | .seed, _ => some (seedStep c)
  | .round, .md5 => if c.rnd.toNat ≤ 63 then some (roundMd5 c) else none
  | .round, .sha256 => if c.rnd.toNat ≤ 63 then some (roundSha256 c) else none
  | .accum, _ => some (accumStep c)
  | .done, _ => none

/-- n micro-steps in a row, with no host command between them; none as soon as there is no step. -/
def microRun : Nat → HashCore → Option HashCore
  | 0, c => some c
  | n + 1, c =>
    match microStep c with
    | some c' => microRun n c'
    | none => none

/-- The engine's turn. -/
def engineTurn (s : State) : Host.Outcome State Fault Refusal :=
  match microStep s.hc with
  | some c => .next (s.setHc c)
  | none => .fault .sequencerStuck

/-- R98: the micro-steps of one block, from LOAD back to IDLE, LOAD or DONE. -/
def blockSteps : Alg → Nat
  | .md5 => 67
  | .sha256 => 115

end Sys2Proof.Machine
end

