-- ==== Sys2Proof/Machine/Bus.lean ====
section
/-! DEFINITION. The host's side of the window (20_memory.md R51 to R55; 40_host_commands.md R90, R100), and which agent moves (R58). -/

namespace Sys2Proof.Machine

/-- R100: the value of a named register. -/
def readReg (c : HashCore) : Reg → Word
  | .cmd => 0#32
  | .status => c.status
  | .data => 0#32
  | .lenLo => c.len.extractLsb' 0 32
  | .lenHi => c.len.extractLsb' 32 32
  | .blkcnt => c.blkcnt
  | .schedw => c.schedw
  | .h k => rd c.h k.val
  | .v k => rd c.v k.val
  | .m k => rd c.m k.val
  | .w t => rd c.w t.val

/-- R51, R55: the content of the window at an admitted offset; a reserved offset reads 0. -/
def windowRead (c : HashCore) (off : Nat) : Word :=
  match regAt off with
  | some r => readReg c r
  | none => 0#32

/-- R78: an ILLEGAL word raises ERR_ILLEGAL "and changes nothing else, even while BUSY". -/
def execIllegal (s : State) : Host.Outcome State Fault Refusal := .next (s.setHc (raiseErr .illegal s.hc))

/-- R90: a write to CMD or DATA executes exactly one command. -/
def portWrite (p : Port) (w : Word) (s : State) : Host.Outcome State Fault Refusal :=
  match decode p w with
  | .ok i => exec i s
  | .error _ => execIllegal s

/-- R54, R55: a write to CMD or DATA is a command; any other admitted write is ignored. -/
def windowWrite (off : Nat) (w : Word) (s : State) : Host.Outcome State Fault Refusal :=
  match regAt off with
  | some .cmd => portWrite .cmd w s
  | some .data => portWrite .data w s
  | some .status => .next s
  | some .lenLo => .next s
  | some .lenHi => .next s
  | some .blkcnt => .next s
  | some .schedw => .next s
  | some (.h _) => .next s
  | some (.v _) => .next s
  | some (.m _) => .next s
  | some (.w _) => .next s
  | none => .next s

/-- A value the host has read (R53: nothing of HASHCORE changes). -/
def State.logRead (s : State) (x : Word) : State := { s with reads := x :: s.reads }

/-- One access of the host (R52, R53, R54). -/
def busAccess (a : Access) (s : State) : Host.Outcome State Fault Refusal :=
  if admits a then
    match a with
    | .read off _ => .next (s.logRead (windowRead s.hc off.toNat))
    | .write off _ x => windowWrite off.toNat x s
  else .fault (.busFault a.off)

/-- The host's turn: its next access; WAIT reads STATUS and is over when the value read has bit 0 = 0 (R80). -/
def hostTurn (s : State) : Host.Outcome State Fault Refusal :=
  match s.host with
  | [] => .next s
  | .access a :: rest => busAccess a { s with host := rest }
  | .wait :: rest =>
    if s.hc.status.getLsbD 0 then .next (s.logRead s.hc.status)
    else .next { s.logRead s.hc.status with host := rest }

/-- Which agent moves. The engine has a step exactly when BUSY = 1 (R97), the host when an access is pending. Where both
could move the schedule says which; when it is used up the engine moves, which is weak fairness (R251; log entry 1). -/
def nextAgent (s : State) : Option Agent :=
  match s.hc.busy, s.host.isEmpty with
  | false, true => none
  | false, false => some .host
  | true, true => some .engine
  | true, false => some (s.sched.headD .engine)

/-- The state with one turn of the schedule used. -/
def State.useTurn (s : State) : State := { s with sched := s.sched.tail }

/-- The state with a host write to a port put in front of everything the host has still to do, and the next turn the
host's. -/
def State.placeWrite (s : State) (p : Port) (w : Word) : State :=
  { s with
    host := .access (.write (match p with | .cmd => 0x000 | .data => 0x008) 4 w) :: s.host
    sched := .host :: s.sched }

end Sys2Proof.Machine
end

