-- ==== Sys2Proof/Machine/Step.lean ====
section
/-! DEFINITION. One step: a host access or an engine micro-step, each whole (20_memory.md R58). -/

namespace Sys2Proof.Machine

/-- R58. With no access pending and BUSY = 0 nothing moves and all state is kept (R225; log entry 10). -/
def step (s : State) : Host.Outcome State Fault Refusal :=
  match nextAgent s with
  | none => .next s
  | some .host => hostTurn s.useTurn
  | some .engine => engineTurn s.useTurn

/-- The state whose very next step is the host's write of that word, to the port the opcode table gives it (log entries 3
and 4). -/
def State.withFetchWord (s : State) (nbits w : Nat) : State :=
  s.placeWrite (tablePort (tableWord nbits w)) (tableWord nbits w)

end Sys2Proof.Machine
end

