-- ==== Sys2Proof/Machine/HostProgram.lean ====
section
/-! DEFINITION. The lines of a host program as bus accesses (30_encoding.md R79, R80). -/

namespace Sys2Proof.Machine

/-- `WR <reg>, <word>` (R79). -/
def wrOp (r : Reg) (w : Word) : HostOp := .access (.write (regOffset r) 4 w)

/-- `RD <reg>` (R79). -/
def rdOp (r : Reg) : HostOp := .access (.read (regOffset r) 4)

/-- The register of a port (R51). -/
def portReg : Port → Reg
  | .cmd => .cmd
  | .data => .data

/-- A command or data word written to its port (R79). -/
def instrOp (i : Instr) : HostOp := wrOp (portReg (encode i).1) (encode i).2

/-- `ABSORBS`: "for each byte c of the text in order, `ABSORB c` followed by `WAIT`" (R80). -/
def absorbsOps (msg : List Byte) : List HostOp := msg.flatMap fun b => [instrOp (.absorb b), .wait]

/-- `HASH`: "`INIT <alg>`, then `ABSORBS "<text>"`, then `FINAL`, then `WAIT`" (R80). -/
def hashOps (a : Alg) (msg : List Byte) : List HostOp :=
  instrOp (.init a) :: absorbsOps msg ++ [instrOp .final, .wait]

/-- `RDDIGEST`: H0 to H3 for MD5, H0 to H7 for SHA-256, in index order (R80). -/
def rdDigestOps (a : Alg) : List HostOp :=
  (List.range (regCount a)).map fun k => rdOp (.h (Fin.ofNat 8 k))

/-- The accesses a line stands for (R79, R80). -/
def expandLine : HostLine → List HostOp
  | .nop => [instrOp .nop]
  | .init a => [instrOp (.init a)]
  | .absorb byte => [instrOp (.absorb (BitVec.ofNat 8 byte))]
  | .final => [instrOp .final]
  | .data word => [instrOp (.data (BitVec.ofNat 32 word))]
  | .wr r word => [wrOp r (BitVec.ofNat 32 word)]
  | .rd r => [rdOp r]
  | .cmd word => [wrOp .cmd (BitVec.ofNat 32 word)]
  | .wait => [.wait]
  | .absorbs text => absorbsOps (text.map (BitVec.ofNat 8))
  | .absorbw word => [instrOp (.data (BitVec.ofNat 32 word)), .wait]
  | .hash a text => hashOps a (text.map (BitVec.ofNat 8))
  | .rdDigest a => rdDigestOps a

/-- The state with the lines of a host program put before it. -/
def State.load (s : State) (lines : List HostLine) : State := { s with host := lines.flatMap expandLine }

end Sys2Proof.Machine
end

