-- ==== Sys2Proof/Machine/System.lean ====
section
/-! DEFINITION. Several HASHCOREs side by side (60_exceptions.md R223): "no state is shared. They run independently". -/

namespace Sys2Proof.Machine

/-- The HASHCOREs of a system, each with a window and a host of its own (R223). -/
structure System where
  cores : List State
  deriving DecidableEq, Repr

/-- All of NUM_INSTANCES HASHCOREs right after reset (R43, R223). -/
def System.reset : System := ⟨List.replicate Config.numCores State.reset⟩

/-- A step of the k-th HASHCORE. Which one steps is no one's to say ("no synchronization", R223): it is an argument. A
number that names no HASHCORE moves nothing. -/
def System.stepAt (k : Nat) (y : System) : Host.Outcome System Fault Refusal :=
  match y.cores[k]? with
  | none => .next y
  | some s =>
    match step s with
    | .next t => .next ⟨y.cores.set k t⟩
    | .fault f => .fault f
    | .refused r => .refused r

end Sys2Proof.Machine
end

