-- ==== Sys2Proof/Safety.lean ====
section
/-! DEFINITION. What holds in every reachable state (10_state.md R44), and the end of a run with what is observed of it
(70_reset_and_hazards.md R252). -/

namespace Sys2Proof.Machine

/-- The invariants of R44, and what makes them inductive: FILL = 0 while BUSY and before INIT (R214), and the registers MD5
does not use are 0 (R25). PHASE ≠ 7 and PSTATE ≠ 3 are said of the codes. -/
structure HashCore.Inv (c : HashCore) : Prop where
  fill_le : c.fill.toNat ≤ 63
  rnd_le : c.rnd.toNat ≤ 64
  phase_ne : c.phase.code ≠ 7#3
  pstate_ne : c.pstate.code ≠ 3#2
  expand_sha256 : c.phase = .expand → c.alg = .sha256 ∧ 16 ≤ c.rnd.toNat ∧ c.rnd.toNat ≤ 63
  round_le : c.phase = .round → c.rnd.toNat ≤ 63
  rest_absorb : c.phase = .idle ∨ c.phase = .done → c.pstate = .absorb
  done_fill : c.phase = .done → c.fill = 0#6
  err_iff : c.err = false ↔ c.errcode.code = 0#3
  noinit_idle : c.initd = false → c.phase = .idle ∧ c.len = 0#64
  busy_fill : c.busy = true → c.fill = 0#6
  noinit_fill : c.initd = false → c.fill = 0#6
  md5_regs : c.alg = .md5 → ∀ k, 4 ≤ k → k < 8 → rd c.h k = 0#32 ∧ rd c.v k = 0#32

/-- R44 of a whole state. -/
def State.Inv (s : State) : Prop := s.hc.Inv

/-- LEN and FILL count the same bytes (R29, R30): while the core waits for data FILL is LEN modulo 64, and while a block of
message bytes is in the engine LEN is a multiple of 64. -/
def HashCore.Counts (c : HashCore) : Prop :=
  (c.phase = .idle → c.fill.toNat = c.len.toNat % 64) ∧
    (c.busy = true → c.pstate = .absorb → c.len.toNat % 64 = 0)

/-- The step at which the host's write of INIT is performed (R58, R93). -/
def InitTurn (s : State) (a : Alg) : Prop :=
  nextAgent s = some .host ∧
    ∃ x rest, s.host = .access (.write 0x000 4 x) :: rest ∧ decode .cmd x = .ok (.init a)

/-- The step at which the host's write of a data command, ABSORB, DATA or FINAL, is performed (R58, R91). -/
def DataCommandTurn (s : State) : Prop :=
  nextAgent s = some .host ∧
    ∃ x rest, (s.host = .access (.write 0x000 4 x) :: rest ∧
        ((∃ b, decode .cmd x = .ok (.absorb b)) ∨ decode .cmd x = .ok .final)) ∨
      s.host = .access (.write 0x008 4 x) :: rest

/-- R252: "the run is over when the host program has finished, BUSY = 0 and no BusFault occurred". A faulted run has no
next state, so no BusFault lies behind a State. -/
def State.Over (s : State) : Prop := s.host = [] ∧ s.hc.busy = false

/-- What is observed at the end of a run (R252). -/
structure Observation where
  status : Word
  len : BitVec 64
  blkcnt : BitVec 32
  h : Vector Word 8
  text : Option (List Char)
  deriving DecidableEq, Repr

/-- R252: STATUS, LEN, BLKCNT and H[0..8], "and DIGEST_TEXT(ALG, H) when DONE = 1". -/
def observe (s : State) : Observation where
  status := s.hc.status
  len := s.hc.len
  blkcnt := s.hc.blkcnt
  h := s.hc.h
  text := if s.hc.isDone then some (digestText s.hc.alg s.hc.h) else none

end Sys2Proof.Machine
end

