-- ==== Sys2Proof/Certificates/Slice0/Obligations.lean ====
section
/-! DEFINITION. The statements about the machine, for the provers. Each docstring names the rules of spec/ it formalises; where
a clause rests on a choice of the model it names the log entry. -/

open Sys2Proof Sys2Proof.Machine

/-! ### Encoding (30_encoding.md) -/

/-- Every command decodes from its own encoding, with every operand at every value (R70 to R77). -/
def Obligations.DecodeOfEncodeIsTheInstruction : Prop :=
  ∀ i : Instr, i.wf = true → decode (encode i).1 (encode i).2 = .ok i

/-- Each word of each port has one meaning: what it decodes to encodes to it and to that port (R70, R75, R77). -/
def Obligations.EncodeOfDecodeIsTheWord : Prop :=
  ∀ (p : Port) (w : Word) (i : Instr), decode p w = .ok i → encode i = (p, w)

/-- R77: the opcode map, clause by clause, and "At most one row matches any word". -/
def Obligations.DecodeFollowsTheOpcodeMap : Prop :=
  ∀ w : Word,
    (w = 0x00000000#32 → decode .cmd w = .ok .nop) ∧
    (w &&& 0xFFFFFFFE#32 = 0x01000000#32 →
      decode .cmd w = .ok (.init (if w.getLsbD 0 then .sha256 else .md5))) ∧
    (w &&& 0xFFFFFF00#32 = 0x02000000#32 → decode .cmd w = .ok (.absorb (w.setWidth 8))) ∧
    (w = 0x03000000#32 → decode .cmd w = .ok .final) ∧
    (w ≠ 0x00000000#32 → w &&& 0xFFFFFFFE#32 ≠ 0x01000000#32 → w &&& 0xFFFFFF00#32 ≠ 0x02000000#32 →
      w ≠ 0x03000000#32 → ∃ e, decode .cmd w = .error e) ∧
    decode .data w = .ok (.data w) ∧
    ∀ r₁ ∈ cmdRows, ∀ r₂ ∈ cmdRows, r₁.selects w = true → r₂.selects w = true → r₁ = r₂

/-- R78: which CMD words are ILLEGAL, by the value of the word, and that writing one raises ERR_ILLEGAL "and changes nothing
else, even while BUSY". Every other CMD word is one of the four commands. -/
def Obligations.IllegalWordsRaiseIllegalAndNothingElse : Prop :=
  ∀ (w : Word) (s : State),
    ((4 ≤ w.toNat / 2 ^ 24 ∨
        (w.toNat / 2 ^ 24 = 0 ∧ w.toNat % 2 ^ 24 ≠ 0) ∨
        (w.toNat / 2 ^ 24 = 1 ∧ 2 ≤ w.toNat % 2 ^ 24) ∨
        (w.toNat / 2 ^ 24 = 2 ∧ 2 ^ 8 ≤ w.toNat % 2 ^ 24) ∨
        (w.toNat / 2 ^ 24 = 3 ∧ w.toNat % 2 ^ 24 ≠ 0)) ↔
      ∃ e, decode .cmd w = .error e) ∧
    ((∃ e, decode .cmd w = .error e) → portWrite .cmd w s = .next { s with hc := raiseErr .illegal s.hc }) ∧
    ((¬∃ e, decode .cmd w = .error e) →
      ∃ i, decode .cmd w = .ok i ∧ portWrite .cmd w s = exec i s ∧ ∀ x, i ≠ .data x)

/-- Words written out bit by bit from 30_encoding.md's formats: OPC, then OPND. -/
def Obligations.WrittenOutWordsDecode : Prop :=
  decode .cmd 0b00000000000000000000000000000000#32 = .ok .nop ∧
    decode .cmd 0b00000001000000000000000000000000#32 = .ok (.init .md5) ∧
    decode .cmd 0b00000001000000000000000000000001#32 = .ok (.init .sha256) ∧
    decode .cmd 0b00000010000000000000000001100001#32 = .ok (.absorb 0x61#8) ∧
    decode .cmd 0b00000011000000000000000000000000#32 = .ok .final ∧
    decode .data 0b01100100011000110110001001100001#32 = .ok (.data 0x64636261#32)

/-! ### Host commands (40_host_commands.md) and errors (60_exceptions.md) -/

/-- R92: NOP, the word 0x00000000, changes nothing, in any state; a word with OPC = 0x00 and a non-zero OPND is ILLEGAL, not a
NOP. -/
def Obligations.NopChangesNothing : Prop :=
  (∀ s : State, exec .nop s = .next s) ∧ decode .cmd 0x00000000#32 = .ok .nop ∧
    ∀ w : Word, w.toNat / 2 ^ 24 = 0 → w.toNat % 2 ^ 24 ≠ 0 → ∃ e, decode .cmd w = .error e

/-- R93, R190, R191: INIT, from any state, busy or not, loads the initial values of its algorithm and clears every other
register and the error record. Its words are 0x01000000 | ALGSEL; with another bit of OPND set the word initialises nothing. -/
def Obligations.InitLoadsInitialValuesAndClearsTheRest : Prop :=
  decode .cmd 0x01000000#32 = .ok (.init .md5) ∧ decode .cmd 0x01000001#32 = .ok (.init .sha256) ∧
  (∀ (w : Word) (s : State), w.toNat / 2 ^ 24 = 1 → 2 ≤ w.toNat % 2 ^ 24 →
    portWrite .cmd w s = .next { s with hc := raiseErr .illegal s.hc }) ∧
  ∀ (a : Alg) (s : State), ∃ c : HashCore,
    exec (.init a) s = .next { s with hc := c } ∧
    c.alg = a ∧ c.initd = true ∧
    (a = .md5 → c.h.toList = [0x67452301#32, 0xefcdab89#32, 0x98badcfe#32, 0x10325476#32, 0#32, 0#32, 0#32, 0#32]) ∧
    (a = .sha256 → c.h.toList = [0x6a09e667#32, 0xbb67ae85#32, 0x3c6ef372#32, 0xa54ff53a#32,
      0x510e527f#32, 0x9b05688c#32, 0x1f83d9ab#32, 0x5be0cd19#32]) ∧
    (∀ k, rd c.v k = 0#32) ∧ (∀ k, rd c.m k = 0#32) ∧ (∀ t, rd c.w t = 0#32) ∧ (∀ i, rd c.buf i = 0#8) ∧
    c.fill = 0#6 ∧ c.len = 0#64 ∧ c.pstate = .absorb ∧ c.blkcnt = 0#32 ∧
    c.err = false ∧ c.errcode = .noError ∧ c.phase = .idle ∧ c.rnd = 0#7

/-- R243: INIT gives HASHCORE the same state from any state as from reset. -/
def Obligations.InitIsASoftReset : Prop :=
  ∀ (a : Alg) (s : State), ∃ t t' : State,
    exec (.init a) s = .next t ∧ exec (.init a) State.reset = .next t' ∧ t.hc = t'.hc

/-- R94: an accepted ABSORB writes its byte at BUF[FILL], counts it, and hands a completed block to the engine. Everything
else is as before. -/
def Obligations.AbsorbAppendsOneByte : Prop :=
  ∀ (b : Byte) (s : State), s.hc.initd = true → s.hc.phase = .idle →
    ∃ buf : Vector Byte 64,
      exec (.absorb b) s = .next { s with hc := { s.hc with
        buf := buf
        len := s.hc.len + 1#64
        fill := if s.hc.fill.toNat = 63 then 0#6 else s.hc.fill + 1#6
        phase := if s.hc.fill.toNat = 63 then .load else .idle } } ∧
      rd buf s.hc.fill.toNat = b ∧
      ∀ i, i < 64 → i ≠ s.hc.fill.toNat → rd buf i = rd s.hc.buf i

/-- R95, R56: an accepted DATA writes its four bytes from BUF[FILL] on, the least significant first, counts them, and hands a
completed block to the engine. Everything else is as before. -/
def Obligations.DataAppendsFourBytesLeastSignificantFirst : Prop :=
  ∀ (w : Word) (s : State), s.hc.initd = true → s.hc.phase = .idle → s.hc.fill.toNat % 4 = 0 →
    ∃ buf : Vector Byte 64,
      exec (.data w) s = .next { s with hc := { s.hc with
        buf := buf
        len := s.hc.len + 4#64
        fill := if s.hc.fill.toNat = 60 then 0#6 else s.hc.fill + 4#6
        phase := if s.hc.fill.toNat = 60 then .load else .idle } } ∧
      (∀ n, n < 4 → rd buf (s.hc.fill.toNat + n) = w.extractLsb' (8 * n) 8) ∧
      ∀ i, i < 64 → (i < s.hc.fill.toNat ∨ s.hc.fill.toNat + 4 ≤ i) → rd buf i = rd s.hc.buf i

/-- R96, R123, R121: an accepted FINAL with FILL ≤ 55 builds the whole tail in BUF (the message bytes, 0x80, zeros, the
length field) and starts the engine on the last block. Everything else is as before, LEN too. -/
def Obligations.FinalBuildsTheLastBlock : Prop :=
  ∀ s : State, s.hc.initd = true → s.hc.phase = .idle → s.hc.fill.toNat ≤ 55 →
    ∃ buf : Vector Byte 64,
      exec .final s = .next { s with hc := { s.hc with
        buf := buf, pstate := .last, fill := 0#6, phase := .load } } ∧
      (∀ i, i < s.hc.fill.toNat → rd buf i = rd s.hc.buf i) ∧
      rd buf s.hc.fill.toNat = 0x80#8 ∧
      (∀ i, s.hc.fill.toNat < i → i < 56 → rd buf i = 0x00#8) ∧
      (s.hc.alg = .md5 → ∀ n, n < 8 → rd buf (56 + n) = BitVec.ofNat 8 (8 * s.hc.len.toNat % 2 ^ 64 / 256 ^ n)) ∧
      (s.hc.alg = .sha256 →
        ∀ n, n < 8 → rd buf (56 + n) = BitVec.ofNat 8 (8 * s.hc.len.toNat % 2 ^ 64 / 256 ^ (7 - n)))

/-- R96, R123: an accepted FINAL with FILL ≥ 56 builds the first of two tail blocks, with the 0x80 byte and no length, and
leaves the second for E_ACCUM. -/
def Obligations.FinalBuildsTheFirstOfTwoTailBlocks : Prop :=
  ∀ s : State, s.hc.initd = true → s.hc.phase = .idle → 56 ≤ s.hc.fill.toNat →
    ∃ buf : Vector Byte 64,
      exec .final s = .next { s with hc := { s.hc with
        buf := buf, pstate := .tail2, fill := 0#6, phase := .load } } ∧
      (∀ i, i < s.hc.fill.toNat → rd buf i = rd s.hc.buf i) ∧
      rd buf s.hc.fill.toNat = 0x80#8 ∧
      ∀ i, s.hc.fill.toNat < i → i < 64 → rd buf i = 0x00#8

/-- R91, R214 and R95's alignment check: which error a rejected data command raises, and that it does nothing else. -/
def Obligations.RejectedDataCommandsOnlyRaiseTheirError : Prop :=
  ∀ (i : Instr) (s : State), (∃ b, i = .absorb b) ∨ (∃ w, i = .data w) ∨ i = .final →
    (s.hc.initd = false → exec i s = .next { s with hc := raiseErr .noinit s.hc }) ∧
    (s.hc.initd = true → s.hc.phase ≠ .idle → s.hc.phase ≠ .done →
      exec i s = .next { s with hc := raiseErr .busy s.hc }) ∧
    (s.hc.initd = true → s.hc.phase = .done → exec i s = .next { s with hc := raiseErr .done s.hc }) ∧
    (s.hc.initd = true → s.hc.phase = .idle → s.hc.fill.toNat % 4 ≠ 0 → (∃ w, i = .data w) →
      exec i s = .next { s with hc := raiseErr .align s.hc })

/-- R212: the error primitive keeps the first error since the last INIT and writes ERR and ERRCODE alone. -/
def Obligations.ErrorPrimitiveKeepsTheFirstError : Prop :=
  ∀ (e : ErrCode) (c : HashCore),
    (c.err = false → raiseErr e c = { c with err := true, errcode := e }) ∧ (c.err = true → raiseErr e c = c)

/-- The frame of NOP, ABSORB, DATA and FINAL, accepted or rejected: the registers they never write, and the bytes of BUF
outside the ones they write, which start at FILL (R92, R94, R95, R123, R212). The host's side of the
state, unchanged too, is the model's (log entries 1 and 2). -/
def Obligations.DataCommandsLeaveTheRestUnchanged : Prop :=
  ∀ (i : Instr) (s t : State), (∀ a, i ≠ .init a) → exec i s = .next t →
    (t.host = s.host ∧ t.reads = s.reads ∧ t.sched = s.sched) ∧
    (t.hc.alg = s.hc.alg ∧ t.hc.initd = s.hc.initd ∧ t.hc.h = s.hc.h ∧ t.hc.v = s.hc.v ∧ t.hc.m = s.hc.m ∧
      t.hc.w = s.hc.w ∧ t.hc.blkcnt = s.hc.blkcnt ∧ t.hc.rnd = s.hc.rnd) ∧
    (i ≠ .final → t.hc.pstate = s.hc.pstate) ∧
    (i = .nop → t.hc = s.hc) ∧
    (∀ j, j < 64 →
      (j < s.hc.fill.toNat ∨ i = .nop ∨ ((∃ b, i = .absorb b) ∧ s.hc.fill.toNat + 1 ≤ j) ∨
        ((∃ w, i = .data w) ∧ s.hc.fill.toNat + 4 ≤ j)) →
      rd t.hc.buf j = rd s.hc.buf j)

/-! ### The engine's micro-steps (files 41 to 46) -/

/-- R130, R11: E_LOAD_MD5 reads BUF as sixteen little-endian words; nothing but M and PHASE changes. -/
def Obligations.Md5LoadReadsLittleEndianWords : Prop :=
  ∀ c : HashCore, c.phase = .load → c.alg = .md5 →
    ∃ m : Vector Word 16, microStep c = some { c with m := m, phase := .seed } ∧
      ∀ k, k < 16 →
        rd m k = rd c.buf (4 * k + 3) ++ rd c.buf (4 * k + 2) ++ rd c.buf (4 * k + 1) ++ rd c.buf (4 * k)

/-- R140, R11: E_LOAD_SHA256 reads BUF as sixteen big-endian words into M and W[0..16], keeps W[16..64], and sets RND to
16. -/
def Obligations.Sha256LoadReadsBigEndianWords : Prop :=
  ∀ c : HashCore, c.phase = .load → c.alg = .sha256 →
    ∃ (m : Vector Word 16) (w : Vector Word 64),
      microStep c = some { c with m := m, w := w, rnd := 16#7, phase := .expand } ∧
      (∀ k, k < 16 →
        rd m k = rd c.buf (4 * k) ++ rd c.buf (4 * k + 1) ++ rd c.buf (4 * k + 2) ++ rd c.buf (4 * k + 3) ∧
          rd w k = rd m k) ∧
      ∀ t, 16 ≤ t → t < 64 → rd w t = rd c.w t

/-- R57: with 16 DATA words as the bytes of the block, M[k] is the word itself for MD5 and its byte reversal for SHA-256. -/
def Obligations.DataWordsLoadAsTheyWereWritten : Prop :=
  ∀ (buf : Vector Byte 64) (x : Nat → Word), (∀ k n, k < 16 → n < 4 → rd buf (4 * k + n) = (x k).extractLsb' (8 * n) 8) →
    ∀ k, k < 16 →
      rd (md5Words buf) k = x k ∧
      rd (sha256Words buf) k =
        (x k).extractLsb' 0 8 ++ (x k).extractLsb' 8 8 ++ (x k).extractLsb' 16 8 ++ (x k).extractLsb' 24 8

/-- R143, R142, R141: E_EXPAND writes W[t], t = RND, by the recurrence, with the sigmas written out by R10's rotations. -/
def Obligations.ExpandWritesOneScheduleWord : Prop :=
  ∀ c : HashCore, c.phase = .expand → c.alg = .sha256 → 16 ≤ c.rnd.toNat → c.rnd.toNat ≤ 63 →
    let t := c.rnd.toNat
    let rotr := fun (x : Word) (n : Nat) => (x >>> n) ||| (x <<< (32 - n))
    let s0 := fun x : Word => rotr x 7 ^^^ rotr x 18 ^^^ (x >>> 3)
    let s1 := fun x : Word => rotr x 17 ^^^ rotr x 19 ^^^ (x >>> 10)
    ∃ w : Vector Word 64,
      microStep c = some { c with
        w := w, rnd := c.rnd + 1#7, phase := if t = 63 then .seed else .expand } ∧
      rd w t = rd c.w (t - 16) + s0 (rd c.w (t - 15)) + rd c.w (t - 7) + s1 (rd c.w (t - 2)) ∧
      ∀ k, k < 64 → k ≠ t → rd w k = rd c.w k

/-- R140, R143, R144: 49 micro-steps from LOAD leave the whole schedule of the block in W, before any round. -/
def Obligations.ScheduleIsCompleteBeforeTheRounds : Prop :=
  ∀ c : HashCore, c.phase = .load → c.alg = .sha256 →
    ∃ c' : HashCore, microRun 49 c = some c' ∧ c'.phase = .seed ∧ c'.rnd = 64#7 ∧ c'.h = c.h ∧ c'.v = c.v ∧
      (∀ t, t < 16 → rd c'.w t = be32 c.buf (4 * t)) ∧
      (∀ t, 16 ≤ t → t < 64 →
        rd c'.w t = rd c'.w (t - 16) + smallSigma0 (rd c'.w (t - 15)) + rd c'.w (t - 7) + smallSigma1 (rd c'.w (t - 2))) ∧
      c'.w = sha256Schedule c.buf

/-- R132: the index table of MD5, and that within each quartile the index runs through a permutation of 0..15. -/
def Obligations.Md5IndexPermutesEachQuartile : Prop :=
  ((List.range 16).map md5Index = [0, 1, 2, 3, 4, 5, 6, 7, 8, 9, 10, 11, 12, 13, 14, 15] ∧
    (List.range 16).map (fun j => md5Index (16 + j)) = [1, 6, 11, 0, 5, 10, 15, 4, 9, 14, 3, 8, 13, 2, 7, 12] ∧
    (List.range 16).map (fun j => md5Index (32 + j)) = [5, 8, 11, 14, 1, 4, 7, 10, 13, 0, 3, 6, 9, 12, 15, 2] ∧
    (List.range 16).map (fun j => md5Index (48 + j)) = [0, 7, 14, 5, 12, 3, 10, 1, 8, 15, 6, 13, 4, 11, 2, 9]) ∧
  ∀ q, q < 4 → ∀ k, k < 16 → ∃ j, j < 16 ∧ md5Index (16 * q + j) = k ∧
    ∀ j', j' < 16 → md5Index (16 * q + j') = k → j' = j

/-- R192: E_SEED copies the running registers of the algorithm into V and starts round 0. -/
def Obligations.SeedCopiesTheRunningState : Prop :=
  ∀ c : HashCore, c.phase = .seed →
    ∃ v : Vector Word 8, microStep c = some { c with v := v, rnd := 0#7, phase := .round } ∧
      (∀ k, k < 4 → rd v k = rd c.h k) ∧
      (c.alg = .md5 → ∀ k, 4 ≤ k → k < 8 → rd v k = rd c.v k) ∧
      (c.alg = .sha256 → ∀ k, 4 ≤ k → k < 8 → rd v k = rd c.h k)

/-- R154, R151, R131, R153: E_ROUND_MD5, with the round function, the index, the rotation and the amounts written out. -/
def Obligations.Md5RoundUpdatesTheTransientRegisters : Prop :=
  ∀ c : HashCore, c.phase = .round → c.alg = .md5 → c.rnd.toNat ≤ 63 →
    let j := c.rnd.toNat
    let a := rd c.v 0
    let b := rd c.v 1
    let x := rd c.v 2
    let d := rd c.v 3
    let fn :=
      if j < 16 then (b &&& x) ||| (~~~b &&& d)
      else if j < 32 then (d &&& b) ||| (~~~d &&& x)
      else if j < 48 then b ^^^ x ^^^ d
      else x ^^^ (b ||| ~~~d)
    let g := if j < 16 then j else if j < 32 then (5 * j + 1) % 16 else if j < 48 then (3 * j + 5) % 16 else 7 * j % 16
    let amounts := [[7, 12, 17, 22], [5, 9, 14, 20], [4, 11, 16, 23], [6, 10, 15, 21]]
    let n := (amounts.getD (j / 16) []).getD (j % 4) 0
    let f := fn + a + kMd5 j + rd c.m g
    ∃ v : Vector Word 8,
      microStep c = some { c with
        v := v, rnd := c.rnd + 1#7, phase := if j = 63 then .accum else .round } ∧
      rd v 0 = d ∧ rd v 1 = b + ((f <<< n) ||| (f >>> (32 - n))) ∧ rd v 2 = b ∧ rd v 3 = x ∧
      ∀ k, 4 ≤ k → k < 8 → rd v k = rd c.v k

/-- R176, R171 to R174: E_ROUND_SHA256, with the sigmas, the choice and the majority written out. -/
def Obligations.Sha256RoundUpdatesTheTransientRegisters : Prop :=
  ∀ c : HashCore, c.phase = .round → c.alg = .sha256 → c.rnd.toNat ≤ 63 →
    let i := c.rnd.toNat
    let a := rd c.v 0
    let b := rd c.v 1
    let y := rd c.v 2
    let d := rd c.v 3
    let e := rd c.v 4
    let f := rd c.v 5
    let g := rd c.v 6
    let h := rd c.v 7
    let rotr := fun (x : Word) (n : Nat) => (x >>> n) ||| (x <<< (32 - n))
    let temp1 := h + (rotr e 6 ^^^ rotr e 11 ^^^ rotr e 25) + ((e &&& f) ^^^ (~~~e &&& g)) + kSha256 i + rd c.w i
    let temp2 := (rotr a 2 ^^^ rotr a 13 ^^^ rotr a 22) + ((a &&& b) ^^^ (a &&& y) ^^^ (b &&& y))
    ∃ v : Vector Word 8,
      microStep c = some { c with
        v := v, rnd := c.rnd + 1#7, phase := if i = 63 then .accum else .round } ∧
      v.toList = [temp1 + temp2, a, b, y, d + temp1, e, f, g]

/-- R175, R191: the SHA-256 tables are the first 32 bits of the fractional parts of the cube roots of the first 64 primes
(K) and of the square roots of the first 8 (the initial values): floor(root(p) · 2^32) mod 2^32, said with whole numbers. -/
def Obligations.Sha256TablesAreRootsOfPrimes : Prop :=
  let primes := (List.range 312).filter fun n =>
    decide (2 ≤ n) && (List.range 18).all fun d => decide (d < 2) || decide (n ≤ d) || decide (n % d ≠ 0)
  primes.length = 64 ∧
    (∀ i, i < 64 → ∃ q, q < 8 ∧
      (q * 2 ^ 32 + (kSha256 i).toNat) ^ 3 ≤ primes.getD i 0 * 2 ^ 96 ∧
      primes.getD i 0 * 2 ^ 96 < (q * 2 ^ 32 + (kSha256 i).toNat + 1) ^ 3) ∧
    ∀ i, i < 8 → ∃ q, q < 8 ∧
      (q * 2 ^ 32 + (rd (iv .sha256) i).toNat) ^ 2 ≤ primes.getD i 0 * 2 ^ 64 ∧
      primes.getD i 0 * 2 ^ 64 < (q * 2 ^ 32 + (rd (iv .sha256) i).toNat + 1) ^ 2

/-- R193: E_ACCUM adds V[k] to H[k] for the registers of the algorithm and counts the block; R194, R124: what follows by
PSTATE, with the second tail block built in the same step. V, M, W and RND stay. -/
def Obligations.AccumAddsAndSequences : Prop :=
  ∀ c : HashCore, c.phase = .accum →
    ∃ h : Vector Word 8,
      (∀ k, k < 4 → rd h k = rd c.h k + rd c.v k) ∧
      (c.alg = .md5 → ∀ k, 4 ≤ k → k < 8 → rd h k = rd c.h k) ∧
      (c.alg = .sha256 → ∀ k, 4 ≤ k → k < 8 → rd h k = rd c.h k + rd c.v k) ∧
      (c.pstate = .absorb → microStep c = some { c with h := h, blkcnt := c.blkcnt + 1#32, phase := .idle }) ∧
      (c.pstate = .last → microStep c = some { c with
        h := h, blkcnt := c.blkcnt + 1#32, pstate := .absorb, phase := .done }) ∧
      (c.pstate = .tail2 → ∃ buf : Vector Byte 64,
        microStep c = some { c with
          h := h, blkcnt := c.blkcnt + 1#32, buf := buf, pstate := .last, phase := .load } ∧
        (∀ i, i < 56 → rd buf i = 0x00#8) ∧
        (c.alg = .md5 → ∀ n, n < 8 → rd buf (56 + n) = BitVec.ofNat 8 (8 * c.len.toNat % 2 ^ 64 / 256 ^ n)) ∧
        (c.alg = .sha256 →
          ∀ n, n < 8 → rd buf (56 + n) = BitVec.ofNat 8 (8 * c.len.toNat % 2 ^ 64 / 256 ^ (7 - n))))

/-- The frame of the micro-steps, from the lists of writers in R21 to R33 and R134, R145: no micro-step writes ALG, INITD,
FILL, LEN, ERR or ERRCODE; H and BLKCNT only in ACCUM; V only in SEED and ROUND; M only in LOAD; W only in LOAD and EXPAND
of SHA-256; BUF only in ACCUM with a second tail pending; PSTATE only in ACCUM. -/
def Obligations.MicroStepsWriteOnlyTheirRegisters : Prop :=
  ∀ c c' : HashCore, microStep c = some c' →
    (c'.alg = c.alg ∧ c'.initd = c.initd ∧ c'.fill = c.fill ∧ c'.len = c.len ∧ c'.err = c.err ∧
      c'.errcode = c.errcode) ∧
    (c.phase ≠ .accum → c'.h = c.h ∧ c'.blkcnt = c.blkcnt ∧ c'.pstate = c.pstate ∧ c'.buf = c.buf) ∧
    (c.phase = .accum → c.pstate ≠ .tail2 → c'.buf = c.buf) ∧
    (c.phase ≠ .seed → c.phase ≠ .round → c'.v = c.v) ∧
    (c.phase ≠ .load → c'.m = c.m) ∧
    (c.alg = .md5 ∨ c.phase ≠ .load ∧ c.phase ≠ .expand → c'.w = c.w)

/-- R97: in every state that meets R44 the engine has a step exactly when BUSY = 1. -/
def Obligations.EngineHasAStepExactlyWhenBusy : Prop :=
  ∀ c : HashCore, c.Inv → ((∃ c', microStep c = some c') ↔ c.busy = true)

/-- R195, R198, R98: the micro-steps of one block, 67 for MD5 and 115 for SHA-256, compute COMPRESS of H and the 64 bytes in
BUF, whatever V, M, W and RND held before; the block is counted, and PHASE, PSTATE and BUF go on as R194 and R124 say. -/
def Obligations.OneBlockRunComputesCompress : Prop :=
  ∀ c : HashCore, c.phase = .load →
    ∃ c' : HashCore,
      microRun (match c.alg with | .md5 => 67 | .sha256 => 115) c = some c' ∧
      c'.h = compress c.alg c.h c.buf ∧ c'.blkcnt = c.blkcnt + 1#32 ∧ c'.rnd = 64#7 ∧
      c'.alg = c.alg ∧ c'.initd = c.initd ∧ c'.len = c.len ∧ c'.fill = c.fill ∧ c'.err = c.err ∧
      c'.errcode = c.errcode ∧
      (c.pstate = .absorb → c'.phase = .idle ∧ c'.pstate = .absorb ∧ c'.buf = c.buf) ∧
      (c.pstate = .tail2 → c'.phase = .load ∧ c'.pstate = .last ∧ c'.buf = secondTail c.alg c.len) ∧
      (c.pstate = .last → c'.phase = .done ∧ c'.pstate = .absorb ∧ c'.buf = c.buf)

/-- R251: from every state that meets R44 the engine, left alone, ends its work: at most two blocks, 230 micro-steps. -/
def Obligations.EngineComesToRest : Prop :=
  ∀ c : HashCore, c.Inv → ∃ n c', n ≤ 230 ∧ microRun n c = some c' ∧ c'.busy = false

/-! ### Padding and digest as functions (41_padding.md, 46_accumulator_digest.md) -/

/-- R120, R121, R122: the padded stream of any message, byte by byte, with the zero count z the least that works and equal to
(55 − L) mod 64. -/
def Obligations.PaddedStreamIsMessageMarkerZerosLength : Prop :=
  ∀ (alg : Alg) (msg : List Byte), ∃ z : Nat,
    (msg.length + 1 + z) % 64 = 56 ∧ (∀ n, (msg.length + 1 + n) % 64 = 56 → z ≤ n) ∧
    (z : Int) = (55 - (msg.length : Int)) % 64 ∧
    (pad alg msg).length = msg.length + 1 + z + 8 ∧ (pad alg msg).length % 64 = 0 ∧
    (blocksOf (pad alg msg)).length = (msg.length + 8) / 64 + 1 ∧
    (∀ i, i < msg.length → (pad alg msg).getD i 0#8 = msg.getD i 0#8) ∧
    (pad alg msg).getD msg.length 0#8 = 0x80#8 ∧
    (∀ i, msg.length < i → i < msg.length + 1 + z → (pad alg msg).getD i 0xFF#8 = 0x00#8) ∧
    (∀ n, n < 8 → (pad alg msg).getD (msg.length + 1 + z + n) 0#8 =
      BitVec.ofNat 8 (8 * msg.length % 2 ^ 64 / 256 ^ (match alg with | .md5 => n | .sha256 => 7 - n)))

/-- R125: the tail FINAL builds, and the second tail E_ACCUM builds, are the last blocks of the padded stream, when BUF holds
the message bytes of the block in progress. -/
def Obligations.TailBlocksAreTheEndOfThePaddedStream : Prop :=
  ∀ (alg : Alg) (msg : List Byte) (buf : Vector Byte 64),
    let f := msg.length % 64
    let len := BitVec.ofNat 64 msg.length
    let full := (List.range (msg.length / 64)).map fun k => tab 64 fun i => msg.getD (64 * k + i) 0#8
    (∀ i, i < f → rd buf i = msg.getD (64 * (msg.length / 64) + i) 0#8) →
    (f ≤ 55 → blocksOf (pad alg msg) = full ++ [lastTail alg len f buf]) ∧
    (56 ≤ f → blocksOf (pad alg msg) = full ++ [firstTail f buf, secondTail alg len])

/-- R196, R197: the digest is 16 bytes for MD5 and 32 for SHA-256, its text twice as many characters of 0-9a-f, the high
nibble of each byte first, each nibble n as the n-th of "0123456789abcdef". -/
def Obligations.DigestTextHasItsLengthAndAlphabet : Prop :=
  ∀ (alg : Alg) (h : Vector Word 8),
    let digits := ['0', '1', '2', '3', '4', '5', '6', '7', '8', '9', 'a', 'b', 'c', 'd', 'e', 'f']
    (digestBytes alg h).length = (match alg with | .md5 => 16 | .sha256 => 32) ∧
    (digestText alg h).length = (match alg with | .md5 => 32 | .sha256 => 64) ∧
    (∀ x ∈ digestText alg h, x ∈ digits) ∧
    (alg = .md5 → ∀ k n, k < 4 → n < 4 → (digestBytes alg h).getD (4 * k + n) 0#8 = (rd h k).extractLsb' (8 * n) 8) ∧
    (alg = .sha256 →
      ∀ k n, k < 8 → n < 4 → (digestBytes alg h).getD (4 * k + n) 0#8 = (rd h k).extractLsb' (8 * (3 - n)) 8) ∧
    ∀ k, k < (digestBytes alg h).length →
      (digestText alg h)[2 * k]? = digits[((digestBytes alg h).getD k 0#8).toNat / 16]? ∧
      (digestText alg h)[2 * k + 1]? = digits[((digestBytes alg h).getD k 0#8).toNat % 16]?

/-! ### The register window (20_memory.md) -/

/-- R38, R37: STATUS field by field, with the codes of R31, R34 and R213 written out, the reserved bits 0, and BUSY and DONE as PHASE
gives them; it reads 0 at reset, and a write to it is ignored. -/
def Obligations.StatusHoldsItsFields : Prop :=
  State.reset.hc.status = 0x00000000#32 ∧ (∀ (x : Word) (s : State), windowWrite 0x004 x s = .next s) ∧
  ∀ c : HashCore,
    windowRead c 0x004 = c.status ∧
    (c.status.getLsbD 0 = true ↔
      c.phase = .load ∨ c.phase = .expand ∨ c.phase = .seed ∨ c.phase = .round ∨ c.phase = .accum) ∧
    (c.status.getLsbD 1 = true ↔ c.phase = .done) ∧
    c.status.getLsbD 2 = c.err ∧ c.status.getLsbD 3 = c.initd ∧
    (c.status.getLsbD 4 = true ↔ c.alg = .sha256) ∧
    c.status.extractLsb' 5 3 = (match c.errcode with
      | .noError => 0#3 | .busy => 1#3 | .done => 2#3 | .align => 3#3 | .illegal => 4#3 | .noinit => 5#3) ∧
    c.status.extractLsb' 8 6 = c.fill ∧
    c.status.extractLsb' 14 2 = 0#2 ∧ c.status.extractLsb' 16 7 = c.rnd ∧ c.status.extractLsb' 23 1 = 0#1 ∧
    c.status.extractLsb' 24 3 = (match c.phase with
      | .idle => 0#3 | .load => 1#3 | .expand => 2#3 | .seed => 3#3 | .round => 4#3 | .accum => 5#3 | .done => 6#3) ∧
    c.status.extractLsb' 27 2 = (match c.pstate with | .absorb => 0#2 | .tail2 => 1#2 | .last => 2#2) ∧
    c.status.extractLsb' 29 3 = 0#3

/-- R40, R131, R133, R145: SCHEDW is the word the pending round reads, and 0 outside ROUND. -/
def Obligations.SchedwIsTheWordOfThePendingRound : Prop :=
  ∀ c : HashCore,
    (c.phase = .round → c.alg = .md5 → c.rnd.toNat ≤ 63 →
      c.schedw = rd c.m (if c.rnd.toNat < 16 then c.rnd.toNat else if c.rnd.toNat < 32 then (5 * c.rnd.toNat + 1) % 16
        else if c.rnd.toNat < 48 then (3 * c.rnd.toNat + 5) % 16 else 7 * c.rnd.toNat % 16)) ∧
    (c.phase = .round → c.alg = .sha256 → c.schedw = rd c.w c.rnd.toNat) ∧
    (c.phase ≠ .round → c.schedw = 0#32)

/-- R51, R55, R100: what each offset of the window reads as. -/
def Obligations.WindowReadsTheRegisterMap : Prop :=
  ∀ c : HashCore,
    windowRead c 0x000 = 0#32 ∧ windowRead c 0x004 = c.status ∧ windowRead c 0x008 = 0#32 ∧
    windowRead c 0x00C = 0#32 ∧
    windowRead c 0x010 = c.len.setWidth 32 ∧ windowRead c 0x014 = (c.len >>> 32).setWidth 32 ∧
    windowRead c 0x018 = c.blkcnt ∧ windowRead c 0x01C = c.schedw ∧
    (∀ k, k < 8 → windowRead c (0x020 + 4 * k) = rd c.h k) ∧
    (∀ k, k < 8 → windowRead c (0x040 + 4 * k) = rd c.v k) ∧
    (∀ k, k < 8 → windowRead c (0x060 + 4 * k) = 0#32) ∧
    (∀ k, k < 16 → windowRead c (0x080 + 4 * k) = rd c.m k) ∧
    (∀ k, k < 16 → windowRead c (0x0C0 + 4 * k) = 0#32) ∧
    (∀ t, t < 64 → windowRead c (0x100 + 4 * t) = rd c.w t)

/-- R53, R58: an admitted read at the host's turn returns the window's value of that moment and changes nothing of HASHCORE.
That the value goes to `reads` and the access leaves `host` is the model's (log entry 2), and so is the turn of `sched` that is
used (log entry 1). -/
def Obligations.AdmittedReadHasNoSideEffect : Prop :=
  ∀ (s : State) (off : Nat) (rest : List HostOp), off < 0x200 → off % 4 = 0 →
    nextAgent s = some .host → s.host = .access (.read off 4) :: rest →
    step s = .next { s with host := rest, sched := s.sched.tail, reads := windowRead s.hc off :: s.reads }

/-- R54, R55: an admitted write to any offset but CMD and DATA is ignored: it changes no state and sets no error.
That the access leaves `host` is the model's (log entry 2), and so is the turn of `sched` that is used (log entry 1). -/
def Obligations.WritesElsewhereAreIgnored : Prop :=
  ∀ (s : State) (off : Nat) (x : Word) (rest : List HostOp), off < 0x200 → off % 4 = 0 → off ≠ 0x000 → off ≠ 0x008 →
    nextAgent s = some .host → s.host = .access (.write off 4 x) :: rest →
    step s = .next { s with host := rest, sched := s.sched.tail }

/-- R52, R219: an access the window does not admit is a BusFault, and no other access is. That the fault ends the run and
carries the offset from CORE_BASE is the model's reading (log entries 5 and 6). -/
def Obligations.ExactlyUnadmittedAccessesBusFault : Prop :=
  ∀ (s : State) (a : Access) (rest : List HostOp), nextAgent s = some .host → s.host = .access a :: rest →
    ((a.size ≠ 4 ∨ a.off % 4 ≠ 0 ∨ a.off < 0 ∨ 0x200 ≤ a.off) → step s = .fault (.busFault a.off)) ∧
    (a.size = 4 → a.off % 4 = 0 → 0 ≤ a.off → a.off < 0x200 → ∃ t, step s = .next t)

/-! ### The step -/

/-- A step runs the decoded instruction (R90, R58): when the host's write to a port is next and its word decodes to i, the
step is exec of i after the access is taken from the host's list (the model's, log entry 2) and one turn of the schedule is
used (the model's, log entry 1). -/
def Obligations.StepRunsTheDecodedCommand : Prop :=
  ∀ (s : State) (p : Port) (w : Word) (i : Instr) (rest : List HostOp),
    nextAgent s = some .host →
    s.host = .access (.write (match p with | .cmd => 0x000 | .data => 0x008) 4 w) :: rest → decode p w = .ok i →
    step s = exec i { s with host := rest, sched := s.sched.tail }

/-- R90, R78: the host's write of an ILLEGAL word to CMD raises ERR_ILLEGAL and does nothing else, busy or not.
That the access leaves `host` is the model's (log entry 2), and so is the turn of `sched` that is used (log entry 1). -/
def Obligations.StepOfAnIllegalWordRaisesIllegal : Prop :=
  ∀ (s : State) (w : Word) (e : DecodeError) (rest : List HostOp),
    nextAgent s = some .host → s.host = .access (.write 0x000 4 w) :: rest → decode .cmd w = .error e →
    step s = .next { s with host := rest, sched := s.sched.tail, hc := raiseErr .illegal s.hc }

/-- A word of the opcode table placed as the next command is run by the very next step, and nothing else happens. That a bare
word is taken for the port its row names is the model's (log entries 3 and 4). -/
def Obligations.PlacedWordIsRunByTheNextStep : Prop :=
  ∀ (s : State) (w : Nat) (i : Instr), decodeTableWord 32 w = some i → step (s.withFetchWord 32 w) = exec i s

/-- R97, R58, R225: whose turn it is. The engine can move exactly when BUSY = 1, the host when an access is pending; where both
can the schedule says. That an exhausted schedule lets the engine move is the model's form of R251 (log entry 1). -/
def Obligations.OnlyAnEnabledAgentMoves : Prop :=
  ∀ s : State,
    (nextAgent s = none ↔ s.hc.busy = false ∧ s.host = []) ∧
    (s.hc.busy = false → s.host ≠ [] → nextAgent s = some .host) ∧
    (s.hc.busy = true → s.host = [] → nextAgent s = some .engine) ∧
    (s.hc.busy = true → s.host ≠ [] → ∀ g rest, s.sched = g :: rest → nextAgent s = some g) ∧
    (s.hc.busy = true → s.host ≠ [] → s.sched = [] → nextAgent s = some .engine)

/-- R97, R58: at the engine's turn the step is one whole micro-step of HASHCORE, and the host's side only loses the turn
(the schedule is the model's, log entry 1). -/
def Obligations.EngineTurnIsOneMicroStep : Prop :=
  ∀ (s : State) (c : HashCore), nextAgent s = some .engine → microStep s.hc = some c →
    step s = .next { s with hc := c, sched := s.sched.tail }

/-- R225, R60: with no access pending and BUSY = 0 the machine keeps all its state. That there is a
step at all, and that it answers the same state, is the model's (log entry 10). -/
def Obligations.IdleMachineKeepsItsState : Prop :=
  ∀ s : State, s.host = [] → s.hc.busy = false → step s = .next s

/-- R80: WAIT polls STATUS; it is over when the value read has bit 0 = 0, and stays the host's next action otherwise.
The lists `host` and `reads` are the model's (log entry 2), and so is the turn of `sched` that is used (log entry 1). -/
def Obligations.WaitPollsStatusUntilNotBusy : Prop :=
  ∀ (s : State) (rest : List HostOp), nextAgent s = some .host → s.host = .wait :: rest →
    (s.hc.busy = true → step s = .next { s with sched := s.sched.tail, reads := s.hc.status :: s.reads }) ∧
    (s.hc.busy = false → step s = .next { s with host := rest, sched := s.sched.tail, reads := s.hc.status :: s.reads })

/-! ### Reset and invariants (10_state.md R43, R44) -/

/-- R43, R240, R241: every register at reset, STATUS reading 0x00000000, and no step of the engine. -/
def Obligations.ResetLeavesTheTabledValues : Prop :=
  let c := State.reset.hc
  c.alg = .md5 ∧ c.initd = false ∧ (∀ k, rd c.h k = 0#32) ∧ (∀ k, rd c.v k = 0#32) ∧ (∀ k, rd c.m k = 0#32) ∧
    (∀ t, rd c.w t = 0#32) ∧ (∀ i, rd c.buf i = 0#8) ∧ c.fill = 0#6 ∧ c.len = 0#64 ∧ c.pstate = .absorb ∧
    c.blkcnt = 0#32 ∧ c.err = false ∧ c.errcode = .noError ∧ c.phase = .idle ∧ c.rnd = 0#7 ∧
    c.status = 0x00000000#32 ∧ microStep c = none

/-- R44 holds at reset, and so does the count of bytes. -/
def Obligations.ResetMeetsTheInvariants : Prop :=
  State.reset.Inv ∧ State.reset.hc.Counts

/-- R44: every step, from every state that meets the invariants, leads to a state that meets them. -/
def Obligations.StepKeepsTheInvariants : Prop :=
  ∀ s t : State, s.Inv → step s = .next t → t.Inv

/-- R29, R30: every step keeps LEN and FILL counting the same bytes, in the states of R44. -/
def Obligations.StepKeepsFillEqualToLengthModuloBlock : Prop :=
  ∀ s t : State, s.Inv → s.hc.Counts → step s = .next t → t.hc.Counts

/-- From a state that meets R44 nothing stops the machine but a host access the window does not admit (R52, R210, R219): the
engine is never stuck and no command is refused. Whose turn it is
comes from the model's schedule (log entry 1), and the fault carries the offset (log entries 5 and 6). -/
def Obligations.OnlyABusFaultStopsTheMachine : Prop :=
  ∀ s : State, s.Inv →
    (∃ t, step s = .next t) ∨
      ∃ a rest, s.host = .access a :: rest ∧ nextAgent s = some .host ∧ step s = .fault (.busFault a.off) ∧
        (a.size ≠ 4 ∨ a.off % 4 ≠ 0 ∨ a.off < 0 ∨ 0x200 ≤ a.off)

/-! ### Rules of the whole machine -/

/-- R36: the only ways PHASE and RND move, over every step. Whose turn it is comes from the model's
schedule (log entry 1). -/
def Obligations.PhaseAndRoundMoveOnlyByTheTable : Prop :=
  ∀ s t : State, step s = .next t →
    let p := s.hc.phase
    let p' := t.hc.phase
    let r := s.hc.rnd.toNat
    let r' := t.hc.rnd.toNat
    (p' = p ∧ r' = r) ∨
    ((∃ a, InitTurn s a) ∧ p' = .idle ∧ r' = 0) ∨
    (DataCommandTurn s ∧ p = .idle ∧ p' = .load ∧ r' = r) ∨
    (nextAgent s = some .engine ∧
      ((p = .load ∧ s.hc.alg = .md5 ∧ p' = .seed ∧ r' = r) ∨
        (p = .load ∧ s.hc.alg = .sha256 ∧ p' = .expand ∧ r' = 16) ∨
        (p = .expand ∧ r < 63 ∧ p' = .expand ∧ r' = r + 1) ∨
        (p = .expand ∧ r = 63 ∧ p' = .seed ∧ r' = 64) ∨
        (p = .seed ∧ p' = .round ∧ r' = 0) ∨
        (p = .round ∧ r < 63 ∧ p' = .round ∧ r' = r + 1) ∨
        (p = .round ∧ r = 63 ∧ p' = .accum ∧ r' = 64) ∨
        (p = .accum ∧ s.hc.pstate = .tail2 ∧ p' = .load ∧ r' = r) ∨
        (p = .accum ∧ s.hc.pstate = .last ∧ p' = .done ∧ r' = r) ∨
        (p = .accum ∧ s.hc.pstate = .absorb ∧ p' = .idle ∧ r' = r)))

/-- R21, R22, R33, R217: only INIT writes ALG and INITD and clears the error record; the first error stays until then. The
host's INIT leaves the registers R93 gives (`initCore`, which InitLoadsInitialValuesAndClearsTheRest writes out). Whose turn it
is comes from the model's schedule (log entry 1). -/
def Obligations.OnlyInitSelectsAndClears : Prop :=
  ∀ s t : State, step s = .next t →
    (∀ a, InitTurn s a → t.hc = initCore a) ∧
      ((¬∃ a, InitTurn s a) → t.hc.alg = s.hc.alg ∧ t.hc.initd = s.hc.initd ∧
        (s.hc.err = true → t.hc.err = true ∧ t.hc.errcode = s.hc.errcode))

/-- R23, R199, R247: the running state H changes only by INIT and by E_ACCUM, so the digest in DONE stays. Whose turn it is
comes from the model's schedule (log entry 1). -/
def Obligations.RunningStateChangesOnlyByInitOrAccum : Prop :=
  ∀ s t : State, step s = .next t → t.hc.h ≠ s.hc.h →
    (∃ a, InitTurn s a) ∨ (nextAgent s = some .engine ∧ s.hc.phase = .accum)

/-- R60, R225: once BUSY = 0, no step but an INIT changes H, V, M, W, BLKCNT or RND, and only a data command starts the engine
again. Whose turn it is comes from the model's schedule (log entry 1). -/
def Obligations.RegistersAreStableOnceNotBusy : Prop :=
  ∀ s t : State, s.hc.busy = false → step s = .next t →
    (∃ a, InitTurn s a) ∨
      (t.hc.h = s.hc.h ∧ t.hc.v = s.hc.v ∧ t.hc.m = s.hc.m ∧ t.hc.w = s.hc.w ∧ t.hc.blkcnt = s.hc.blkcnt ∧
        t.hc.rnd = s.hc.rnd ∧ (t.hc.busy = true → DataCommandTurn s ∧ t.hc.phase = .load))

/-- R58, R59: the host's accesses are performed in the host's order, at most one a step, and only at its turn. The
lists `host` and `reads` are the model's (log entry 2), and whose turn it is comes from its schedule (log entry 1). -/
def Obligations.HostAccessesKeepTheirOrder : Prop :=
  ∀ s t : State, step s = .next t →
    (t.host = s.host ∨ nextAgent s = some .host ∧ t.host = s.host.tail) ∧
    (t.reads = s.reads ∨ ∃ x, t.reads = x :: s.reads)

/-- R198, R125, R251: the sequence `HASH alg, msg` of R80 computes the digest of any message under every interleaving. From
any state that meets R44, whatever the schedule, the host's INIT, ABSORBs, FINAL and WAITs come to an end in DONE, with no
error recorded, LEN and BLKCNT as R30 and R122 give them, and H the fold of COMPRESS over the blocks of the padded
message. The list of accesses, and the schedule with the engine moving when it is used up, are the model's (log
entries 1 and 2). -/
def Obligations.HashSequenceReachesTheDigest : Prop :=
  ∀ (alg : Alg) (msg : List Byte) (s : State), s.Inv → s.host = hashOps alg msg →
    ∃ (n : Nat) (t : State), Host.Core.run Sys2Proof.core n s = .next t ∧
      t.host = [] ∧ t.hc.phase = .done ∧ t.hc.alg = alg ∧ t.hc.err = false ∧
      t.hc.len = BitVec.ofNat 64 msg.length ∧ t.hc.blkcnt = BitVec.ofNat 32 ((msg.length + 8) / 64 + 1) ∧
      t.hc.h = digestRegs alg msg

/-- R223: a step of one HASHCORE leaves every other one of the system as it is. A system as a list, and the number of
the one that steps as an argument, are the model's (log entry 8). -/
def Obligations.CoresShareNoState : Prop :=
  ∀ (k : Nat) (y y' : System), y.stepAt k = .next y' →
    y'.cores.length = y.cores.length ∧ ∀ j, j ≠ k → y'.cores[j]? = y.cores[j]?

/-! ### The MD5 constants (44_md5_compression.md) -/

/-- R152: the 64 round constants of MD5, as the table has them ("The table below is that formula evaluated and is
normative"). That the table is the sine formula is not said here (log entry 13). -/
def Obligations.Md5ConstantsAreTheTable : Prop :=
  (List.range 64).map kMd5 =
    [0xd76aa478#32, 0xe8c7b756#32, 0x242070db#32, 0xc1bdceee#32,
      0xf57c0faf#32, 0x4787c62a#32, 0xa8304613#32, 0xfd469501#32,
      0x698098d8#32, 0x8b44f7af#32, 0xffff5bb1#32, 0x895cd7be#32,
      0x6b901122#32, 0xfd987193#32, 0xa679438e#32, 0x49b40821#32] ++
    [0xf61e2562#32, 0xc040b340#32, 0x265e5a51#32, 0xe9b6c7aa#32,
      0xd62f105d#32, 0x02441453#32, 0xd8a1e681#32, 0xe7d3fbc8#32,
      0x21e1cde6#32, 0xc33707d6#32, 0xf4d50d87#32, 0x455a14ed#32,
      0xa9e3e905#32, 0xfcefa3f8#32, 0x676f02d9#32, 0x8d2a4c8a#32] ++
    [0xfffa3942#32, 0x8771f681#32, 0x6d9d6122#32, 0xfde5380c#32,
      0xa4beea44#32, 0x4bdecfa9#32, 0xf6bb4b60#32, 0xbebfbc70#32,
      0x289b7ec6#32, 0xeaa127fa#32, 0xd4ef3085#32, 0x04881d05#32,
      0xd9d4d039#32, 0xe6db99e5#32, 0x1fa27cf8#32, 0xc4ac5665#32] ++
    [0xf4292244#32, 0x432aff97#32, 0xab9423a7#32, 0xfc93a039#32,
      0x655b59c3#32, 0x8f0ccc92#32, 0xffeff47d#32, 0x85845dd1#32,
      0x6fa87e4f#32, 0xfe2ce6e0#32, 0xa3014314#32, 0x4e0811a1#32,
      0xf7537e82#32, 0xbd3af235#32, 0x2ad7d2bb#32, 0xeb86d391#32]
end

