-- ==== Sys2Proof/Laws/Regs.lean ====
section
/-! SUPPORT. Reading and writing a register array: read after write, and equality element by element. -/

namespace Sys2Proof.Machine

variable {w n : Nat}

theorem rd_eq_getElem (f : Vector (BitVec w) n) {i : Nat} (h : i < n) : rd f i = f[i] := by
  simp [rd, h]

theorem rd_of_le (f : Vector (BitVec w) n) {i : Nat} (h : n ≤ i) : rd f i = 0#w := by
  simp [rd, h]

/-- Two arrays with the same elements are equal. -/
theorem eq_of_rd {f g : Vector (BitVec w) n} (h : ∀ i, i < n → rd f i = rd g i) : f = g := by
  ext i hi
  have := h i hi
  rw [rd_eq_getElem f hi, rd_eq_getElem g hi] at this
  rw [this]

theorem rd_tab (g : Nat → BitVec w) (i : Nat) : rd (tab n g) i = if i < n then g i else 0#w := by
  by_cases h : i < n <;> simp [rd, tab, h]

@[simp] theorem rd_tab_lt (g : Nat → BitVec w) {i : Nat} (h : i < n) : rd (tab n g) i = g i := by
  rw [rd_tab, if_pos h]

theorem rd_wr (f : Vector (BitVec w) n) (i j : Nat) (x : BitVec w) :
    rd (wr f i x) j = if j = i ∧ i < n then x else rd f j := by
  by_cases h : i = j
  · subst h
    by_cases hi : i < n
    · simp [rd, wr, hi]
    · simp [rd, wr, hi]
  · have h' : ¬ j = i := fun e => h e.symm
    simp [rd, wr, h, h']

@[simp] theorem rd_wr_same (f : Vector (BitVec w) n) {i : Nat} (x : BitVec w) (h : i < n) :
    rd (wr f i x) i = x := by
  rw [rd_wr, if_pos ⟨rfl, h⟩]

@[simp] theorem rd_wr_ne (f : Vector (BitVec w) n) {i j : Nat} (x : BitVec w) (h : j ≠ i) :
    rd (wr f i x) j = rd f j := by
  rw [rd_wr, if_neg (fun e => h e.1)]

@[simp] theorem rd_replicate (i : Nat) : rd (Vector.replicate n 0#w) i = 0#w := by
  by_cases h : i < n <;> simp [rd, h]

end Sys2Proof.Machine
end

