-- ==== Sys2Proof/Laws/Bytes.lean ====
section
/-! SUPPORT. Byte order: the words of a block as concatenations, the bytes of the length field, the bytes of the padded
stream. -/

namespace Sys2Proof.Machine

theorem getLsbD_append4 (a b c d : Byte) (k : Nat) :
    (a ++ b ++ c ++ d : BitVec (8 + 8 + 8 + 8)).getLsbD k =
      if k < 8 then d.getLsbD k else if k < 16 then c.getLsbD (k - 8)
      else if k < 24 then b.getLsbD (k - 16) else a.getLsbD (k - 24) := by
  simp only [BitVec.getLsbD_append]
  split_ifs <;> first | rfl | omega

/-- R11: LE32, the first byte the least significant. -/
theorem le32_append (b : Vector Byte 64) (i : Nat) :
    le32 b i = rd b (i + 3) ++ rd b (i + 2) ++ rd b (i + 1) ++ rd b i := by
  unfold le32 byteAt
  generalize rd b i = x0
  generalize rd b (i + 1) = x1
  generalize rd b (i + 2) = x2
  generalize rd b (i + 3) = x3
  apply BitVec.eq_of_getLsbD_eq
  intro k hk
  refine Eq.trans ?_ (getLsbD_append4 _ _ _ _ k).symm
  interval_cases k <;> simp

/-- R11: BE32, the first byte the most significant. -/
theorem be32_append (b : Vector Byte 64) (i : Nat) :
    be32 b i = rd b i ++ rd b (i + 1) ++ rd b (i + 2) ++ rd b (i + 3) := by
  unfold be32 byteAt
  generalize rd b i = x0
  generalize rd b (i + 1) = x1
  generalize rd b (i + 2) = x2
  generalize rd b (i + 3) = x3
  apply BitVec.eq_of_getLsbD_eq
  intro k hk
  refine Eq.trans ?_ (getLsbD_append4 _ _ _ _ k).symm
  interval_cases k <;> simp

@[simp] theorem dataBytes_length (w : Word) : (dataBytes w).length = 4 := rfl

@[simp] theorem lenField_length (alg : Alg) (len : BitVec 64) : (lenField alg len).length = 8 := by
  cases alg <;> rfl

/-- Byte m of the bit length (8 · LEN) mod 2^64. -/
theorem byteOf_bitLength (len : BitVec 64) {m : Nat} :
    byteOf (len <<< 3) m = BitVec.ofNat 8 (8 * len.toNat % 2 ^ 64 / 256 ^ m) := by
  apply BitVec.eq_of_toNat_eq
  simp only [byteOf, BitVec.extractLsb'_toNat, BitVec.toNat_shiftLeft, BitVec.toNat_ofNat, Nat.shiftRight_eq_div_pow,
    Nat.shiftLeft_eq]
  rw [show (256 : Nat) = 2 ^ 8 from rfl, ← pow_mul, Nat.mul_comm len.toNat]

/-- R121: byte n of the length field, little-endian for MD5 and big-endian for SHA-256. -/
theorem lenField_getD (alg : Alg) (len : BitVec 64) {n : Nat} (hn : n < 8) :
    (lenField alg len).getD n 0#8 =
      BitVec.ofNat 8 (8 * len.toNat % 2 ^ 64 / 256 ^ (match alg with | .md5 => n | .sha256 => 7 - n)) := by
  cases alg with
  | md5 =>
    have h : (lenField .md5 len).getD n 0#8 = byteOf (len <<< 3) n := by interval_cases n <;> rfl
    rw [h, byteOf_bitLength]
  | sha256 =>
    have h : (lenField .sha256 len).getD n 0#8 = byteOf (len <<< 3) (7 - n) := by interval_cases n <;> rfl
    rw [h, byteOf_bitLength]

/-- R120: the padded stream byte by byte. -/
theorem pad_getD (alg : Alg) (msg : List Byte) (i : Nat) (x : Byte) :
    (pad alg msg).getD i x =
      if i < msg.length then msg.getD i x
      else if i = msg.length then 0x80#8
      else if i < msg.length + 1 + padZeros msg.length then 0#8
      else (lenField alg (BitVec.ofNat 64 msg.length)).getD (i - (msg.length + 1 + padZeros msg.length)) x := by
  unfold pad
  simp only [List.getD_eq_getElem?_getD, List.getElem?_append, List.length_append, List.length_singleton,
    List.length_replicate, List.getElem?_replicate]
  split_ifs with h1 h2 h3 h4 h5 h6 h7 <;> first | omega | rfl | skip
  all_goals
    have : i - msg.length = 0 := by omega
    simp [this]

end Sys2Proof.Machine
end

