-- ==== Sys2Proof/Laws/State.lean ====
section
/-! SUPPORT. What each named update of the state leaves in each field. -/

namespace Sys2Proof.Machine

section SetHc
variable (s : State) (c : HashCore)
@[simp] theorem State.setHc_hc : (s.setHc c).hc = c := rfl
@[simp] theorem State.setHc_host : (s.setHc c).host = s.host := rfl
@[simp] theorem State.setHc_reads : (s.setHc c).reads = s.reads := rfl
@[simp] theorem State.setHc_sched : (s.setHc c).sched = s.sched := rfl
@[simp] theorem State.setHc_self : s.setHc s.hc = s := rfl
@[simp] theorem State.setHc_setHc (c' : HashCore) : (s.setHc c).setHc c' = s.setHc c' := rfl
@[simp] theorem State.useTurn_hc : s.useTurn.hc = s.hc := rfl
@[simp] theorem State.useTurn_host : s.useTurn.host = s.host := rfl
@[simp] theorem State.useTurn_reads : s.useTurn.reads = s.reads := rfl
@[simp] theorem State.useTurn_sched : s.useTurn.sched = s.sched.tail := rfl
@[simp] theorem State.logRead_hc (x : Word) : (s.logRead x).hc = s.hc := rfl
@[simp] theorem State.logRead_host (x : Word) : (s.logRead x).host = s.host := rfl
@[simp] theorem State.logRead_reads (x : Word) : (s.logRead x).reads = x :: s.reads := rfl
@[simp] theorem State.logRead_sched (x : Word) : (s.logRead x).sched = s.sched := rfl
end SetHc

section Errors
variable (e : ErrCode) (c : HashCore)
@[simp] theorem raiseErr_alg : (raiseErr e c).alg = c.alg := by unfold raiseErr; split <;> rfl
@[simp] theorem raiseErr_initd : (raiseErr e c).initd = c.initd := by unfold raiseErr; split <;> rfl
@[simp] theorem raiseErr_h : (raiseErr e c).h = c.h := by unfold raiseErr; split <;> rfl
@[simp] theorem raiseErr_v : (raiseErr e c).v = c.v := by unfold raiseErr; split <;> rfl
@[simp] theorem raiseErr_m : (raiseErr e c).m = c.m := by unfold raiseErr; split <;> rfl
@[simp] theorem raiseErr_w : (raiseErr e c).w = c.w := by unfold raiseErr; split <;> rfl
@[simp] theorem raiseErr_buf : (raiseErr e c).buf = c.buf := by unfold raiseErr; split <;> rfl
@[simp] theorem raiseErr_fill : (raiseErr e c).fill = c.fill := by unfold raiseErr; split <;> rfl
@[simp] theorem raiseErr_len : (raiseErr e c).len = c.len := by unfold raiseErr; split <;> rfl
@[simp] theorem raiseErr_pstate : (raiseErr e c).pstate = c.pstate := by unfold raiseErr; split <;> rfl
@[simp] theorem raiseErr_blkcnt : (raiseErr e c).blkcnt = c.blkcnt := by unfold raiseErr; split <;> rfl
@[simp] theorem raiseErr_phase : (raiseErr e c).phase = c.phase := by unfold raiseErr; split <;> rfl
@[simp] theorem raiseErr_rnd : (raiseErr e c).rnd = c.rnd := by unfold raiseErr; split <;> rfl
@[simp] theorem raiseErr_busy : (raiseErr e c).busy = c.busy := by unfold HashCore.busy; rw [raiseErr_phase]
@[simp] theorem raiseErr_err : (raiseErr e c).err = true := by
  unfold raiseErr; split
  · assumption
  · rfl
@[simp] theorem clearErr_err : (clearErr c).err = false := rfl
@[simp] theorem clearErr_errcode : (clearErr c).errcode = .noError := rfl

/-- INIT leaves no error record of its own to clear (R93). -/
@[simp] theorem clearErr_initCore (a : Alg) : clearErr (initCore a) = initCore a := rfl
end Errors

section Bytes
variable (n : Nat) (xs : List Byte) (c : HashCore)
@[simp] theorem countBytes_alg : (countBytes n c).alg = c.alg := by unfold countBytes; split <;> rfl
@[simp] theorem countBytes_initd : (countBytes n c).initd = c.initd := by unfold countBytes; split <;> rfl
@[simp] theorem countBytes_h : (countBytes n c).h = c.h := by unfold countBytes; split <;> rfl
@[simp] theorem countBytes_v : (countBytes n c).v = c.v := by unfold countBytes; split <;> rfl
@[simp] theorem countBytes_m : (countBytes n c).m = c.m := by unfold countBytes; split <;> rfl
@[simp] theorem countBytes_w : (countBytes n c).w = c.w := by unfold countBytes; split <;> rfl
@[simp] theorem countBytes_buf : (countBytes n c).buf = c.buf := by unfold countBytes; split <;> rfl
@[simp] theorem countBytes_len : (countBytes n c).len = c.len + BitVec.ofNat 64 n := by
  unfold countBytes; split <;> rfl
@[simp] theorem countBytes_pstate : (countBytes n c).pstate = c.pstate := by unfold countBytes; split <;> rfl
@[simp] theorem countBytes_blkcnt : (countBytes n c).blkcnt = c.blkcnt := by unfold countBytes; split <;> rfl
@[simp] theorem countBytes_err : (countBytes n c).err = c.err := by unfold countBytes; split <;> rfl
@[simp] theorem countBytes_errcode : (countBytes n c).errcode = c.errcode := by unfold countBytes; split <;> rfl
@[simp] theorem countBytes_rnd : (countBytes n c).rnd = c.rnd := by unfold countBytes; split <;> rfl
theorem countBytes_fill :
    (countBytes n c).fill = if c.fill.toNat + n = 64 then 0#6 else c.fill + BitVec.ofNat 6 n := by
  unfold countBytes; split <;> rfl
theorem countBytes_phase :
    (countBytes n c).phase = if c.fill.toNat + n = 64 then .load else c.phase := by
  unfold countBytes; split <;> rfl

/-- Writing bytes from index i on changes no element outside them. -/
theorem rd_wrBytes_outside (b : Vector Byte 64) (i : Nat) {j : Nat} (h : j < i ∨ i + xs.length ≤ j) :
    rd (wrBytes b i xs) j = rd b j := by
  induction xs generalizing b i with
  | nil => rfl
  | cons x xs ih =>
    have hl : (x :: xs).length = xs.length + 1 := rfl
    rw [wrBytes, ih (wr b i x) (i + 1) (by omega), rd_wr_ne _ _ (by omega)]

/-- The n-th of the bytes written from index i on stands at i + n. -/
theorem rd_wrBytes_inside (b : Vector Byte 64) (i : Nat) {n : Nat} (hn : n < xs.length) (hi : i + n < 64) :
    rd (wrBytes b i xs) (i + n) = xs.getD n 0#8 := by
  induction xs generalizing b i n with
  | nil => exact absurd hn (Nat.not_lt_zero n)
  | cons x xs ih =>
    rw [wrBytes]
    cases n with
    | zero => rw [rd_wrBytes_outside _ _ _ (by omega)]; simpa using rd_wr_same b x hi
    | succ n =>
      have := ih (wr b i x) (i + 1) (n := n) (by simpa using hn) (by omega)
      simpa [Nat.add_assoc, Nat.add_comm 1 n] using this
end Bytes

section Final
variable (c : HashCore)
@[simp] theorem padTail_alg : (padTail c).alg = c.alg := by unfold padTail; split <;> rfl
@[simp] theorem padTail_initd : (padTail c).initd = c.initd := by unfold padTail; split <;> rfl
@[simp] theorem padTail_h : (padTail c).h = c.h := by unfold padTail; split <;> rfl
@[simp] theorem padTail_v : (padTail c).v = c.v := by unfold padTail; split <;> rfl
@[simp] theorem padTail_m : (padTail c).m = c.m := by unfold padTail; split <;> rfl
@[simp] theorem padTail_w : (padTail c).w = c.w := by unfold padTail; split <;> rfl
@[simp] theorem padTail_len : (padTail c).len = c.len := by unfold padTail; split <;> rfl
@[simp] theorem padTail_blkcnt : (padTail c).blkcnt = c.blkcnt := by unfold padTail; split <;> rfl
@[simp] theorem padTail_err : (padTail c).err = c.err := by unfold padTail; split <;> rfl
@[simp] theorem padTail_errcode : (padTail c).errcode = c.errcode := by unfold padTail; split <;> rfl
@[simp] theorem padTail_rnd : (padTail c).rnd = c.rnd := by unfold padTail; split <;> rfl
theorem padTail_buf :
    (padTail c).buf = if c.fill.toNat ≤ 55 then lastTail c.alg c.len c.fill.toNat c.buf
      else firstTail c.fill.toNat c.buf := by
  unfold padTail; split <;> rfl
theorem padTail_pstate : (padTail c).pstate = if c.fill.toNat ≤ 55 then .last else .tail2 := by
  unfold padTail; split <;> rfl
end Final

end Sys2Proof.Machine
end

