-- ==== Sys2Proof/Laws/Commands.lean ====
section
/-! SUPPORT. What the admission checks and each command can do. -/

namespace Sys2Proof.Machine

/-- DataCheck passes "only when INITD = 1 and PHASE = IDLE" (R91). -/
theorem dataCheck_eq_none {c : HashCore} : dataCheck c = none ↔ c.initd = true ∧ c.phase = .idle := by
  unfold dataCheck HashCore.busy HashCore.isDone
  cases c.initd <;> cases c.phase <;> simp [Phase.busy]

theorem dataWordCheck_eq_none {c : HashCore} :
    dataWordCheck c = none ↔ c.initd = true ∧ c.phase = .idle ∧ c.fill.toNat % 4 = 0 := by
  unfold dataWordCheck
  cases h : dataCheck c with
  | none => simp [dataCheck_eq_none.mp h]
  | some e =>
    have : ¬ (c.initd = true ∧ c.phase = .idle) := fun hh => by simp [dataCheck_eq_none.mpr hh] at h
    simp only [reduceCtorEq, false_iff]
    exact fun hh => this ⟨hh.1, hh.2.1⟩

/-- A checked command always answers a next state, with one of two HASHCOREs. -/
theorem checked_eq {check : Option ErrCode} {effect : HashCore} {s : State} :
    (∃ e, check = some e ∧ checked check effect s = .next (s.setHc (raiseErr e s.hc))) ∨
      (check = none ∧ checked check effect s = .next (s.setHc effect)) := by
  cases check with
  | none => exact .inr ⟨rfl, rfl⟩
  | some e => exact .inl ⟨e, rfl, rfl⟩

/-- The HASHCORE each command leaves (R92 to R96): the whole effect of `exec`. -/
inductive CommandEffect : Instr → HashCore → HashCore → Prop where
  | nop (c : HashCore) : CommandEffect .nop c c
  | init (a : Alg) (c : HashCore) : CommandEffect (.init a) c (initCore a)
  | absorb (b : Byte) (c : HashCore) (hi : c.initd = true) (hp : c.phase = .idle) :
      CommandEffect (.absorb b) c (takeBytes [b] c)
  | data (x : Word) (c : HashCore) (hi : c.initd = true) (hp : c.phase = .idle) (hf : c.fill.toNat % 4 = 0) :
      CommandEffect (.data x) c (takeBytes (dataBytes x) c)
  | final (c : HashCore) (hi : c.initd = true) (hp : c.phase = .idle) : CommandEffect .final c (finalCore c)
  | rejected (i : Instr) (e : ErrCode) (c : HashCore) (he : e ≠ .noError) (hn : i ≠ .nop) (hi : ∀ a, i ≠ .init a) :
      CommandEffect i c (raiseErr e c)

theorem dataCheck_ne_noError {c : HashCore} {e : ErrCode} (h : dataCheck c = some e) : e ≠ .noError := by
  unfold dataCheck at h
  split at h
  · cases h; simp
  · split at h
    · cases h; simp
    · split at h
      · cases h; simp
      · cases h

theorem dataWordCheck_ne_noError {c : HashCore} {e : ErrCode} (h : dataWordCheck c = some e) : e ≠ .noError := by
  unfold dataWordCheck at h
  split at h
  · rename_i e' h'; cases h; exact dataCheck_ne_noError h'
  · split at h
    · cases h; simp
    · cases h

/-- Every command answers a next state that differs in HASHCORE alone, and there by one of these effects. -/
theorem exec_effect (i : Instr) (s : State) : ∃ c, exec i s = .next (s.setHc c) ∧ CommandEffect i s.hc c := by
  cases i with
  | nop => exact ⟨s.hc, rfl, .nop _⟩
  | init a => exact ⟨initCore a, rfl, .init a _⟩
  | absorb b =>
    rcases checked_eq (check := dataCheck s.hc) (effect := takeBytes [b] s.hc) (s := s) with ⟨e, he, h⟩ | ⟨hn, h⟩
    · exact ⟨_, h, .rejected _ e _ (dataCheck_ne_noError he) (by simp) (by simp)⟩
    · obtain ⟨hi, hp⟩ := dataCheck_eq_none.mp hn
      exact ⟨_, h, .absorb b _ hi hp⟩
  | final =>
    rcases checked_eq (check := dataCheck s.hc) (effect := finalCore s.hc) (s := s) with ⟨e, he, h⟩ | ⟨hn, h⟩
    · exact ⟨_, h, .rejected _ e _ (dataCheck_ne_noError he) (by simp) (by simp)⟩
    · obtain ⟨hi, hp⟩ := dataCheck_eq_none.mp hn
      exact ⟨_, h, .final _ hi hp⟩
  | data x =>
    rcases checked_eq (check := dataWordCheck s.hc) (effect := takeBytes (dataBytes x) s.hc) (s := s)
      with ⟨e, he, h⟩ | ⟨hn, h⟩
    · exact ⟨_, h, .rejected _ e _ (dataWordCheck_ne_noError he) (by simp) (by simp)⟩
    · obtain ⟨hi, hp, hf⟩ := dataWordCheck_eq_none.mp hn
      exact ⟨_, h, .data x _ hi hp hf⟩

/-- The same, read from an answer. -/
theorem exec_next {i : Instr} {s t : State} (h : exec i s = .next t) :
    ∃ c, t = s.setHc c ∧ CommandEffect i s.hc c := by
  obtain ⟨c, hc, he⟩ := exec_effect i s
  rw [hc] at h
  cases h
  exact ⟨c, rfl, he⟩

end Sys2Proof.Machine
end

