-- ==== Sys2Proof/Laws/Encoding.lean ====
section
/-! SUPPORT. The rows of the opcode map as conditions on the number a word is, and that no two of them overlap. -/

namespace Sys2Proof

/-- Two rows overlap when some word is selected by both: when their matches agree on the bits both masks look at. -/
def OpRow.overlaps (r q : OpRow) : Bool := (r.mask &&& q.mask &&& (r.pattern ^^^ q.pattern)) == 0#32

/-- R77: no two rows of the CMD port overlap. -/
theorem cmdRows_disjoint : cmdRows.Pairwise (fun r q => r.overlaps q = false) := by decide

theorem nopRow_selects {w : Word} : nopRow.selects w = true ↔ w = 0x00000000#32 := by
  have h : w &&& 0xFFFFFFFF#32 = w := by
    rw [show (0xFFFFFFFF#32) = BitVec.allOnes 32 from rfl, BitVec.and_allOnes]
  simp only [OpRow.selects, nopRow, beq_iff_eq, h]

theorem finalRow_selects {w : Word} : finalRow.selects w = true ↔ w = 0x03000000#32 := by
  have h : w &&& 0xFFFFFFFF#32 = w := by
    rw [show (0xFFFFFFFF#32) = BitVec.allOnes 32 from rfl, BitVec.and_allOnes]
  simp only [OpRow.selects, finalRow, beq_iff_eq, h]

/-- A mask of the bits from k up keeps the quotient by 2^k. -/
theorem and_shifted_ones (w : Word) (k : Nat) : (w &&& (BitVec.allOnes 32 <<< k)).toNat = w.toNat / 2 ^ k * 2 ^ k := by
  have h : w &&& (BitVec.allOnes 32 <<< k) = (w >>> k) <<< k := by
    apply BitVec.eq_of_getLsbD_eq
    intro i hi
    rw [BitVec.getLsbD_and, BitVec.getLsbD_shiftLeft, BitVec.getLsbD_shiftLeft, BitVec.getLsbD_ushiftRight,
      BitVec.getLsbD_allOnes]
    by_cases hk : i < k
    · simp [hk]
    · simp [hk, hi, show k + (i - k) = i by omega, show i - k < 32 by omega]
  rw [h, BitVec.toNat_shiftLeft, BitVec.toNat_ushiftRight, Nat.shiftRight_eq_div_pow, Nat.shiftLeft_eq]
  exact Nat.mod_eq_of_lt (lt_of_le_of_lt (Nat.div_mul_le_self _ _) w.isLt)

theorem initRow_selects {w : Word} : initRow.selects w = true ↔ w.toNat / 2 = 2 ^ 23 := by
  simp only [OpRow.selects, initRow, beq_iff_eq]
  rw [← BitVec.toNat_inj, show (0xFFFFFFFE#32) = BitVec.allOnes 32 <<< 1 from rfl, and_shifted_ones]
  simp
  omega

theorem absorbRow_selects {w : Word} : absorbRow.selects w = true ↔ w.toNat / 2 ^ 8 = 2 ^ 17 := by
  simp only [OpRow.selects, absorbRow, beq_iff_eq]
  rw [← BitVec.toNat_inj, show (0xFFFFFF00#32) = BitVec.allOnes 32 <<< 8 from rfl, and_shifted_ones]
  simp
  omega

end Sys2Proof
end

