-- ==== Sys2Proof/Laws/Engine.lean ====
section
/-! SUPPORT. What a micro-step can do. -/

namespace Sys2Proof.Machine

/-- The micro-steps of R97's table, each with the state it is enabled in. -/
inductive MicroEffect : HashCore → HashCore → Prop where
  | loadMd5 (c : HashCore) (hp : c.phase = .load) (ha : c.alg = .md5) : MicroEffect c (loadMd5 c)
  | loadSha256 (c : HashCore) (hp : c.phase = .load) (ha : c.alg = .sha256) : MicroEffect c (loadSha256 c)
  | expand (c : HashCore) (hp : c.phase = .expand) (ha : c.alg = .sha256) (hl : 16 ≤ c.rnd.toNat)
      (hu : c.rnd.toNat ≤ 63) : MicroEffect c (expandStep c)
  | seed (c : HashCore) (hp : c.phase = .seed) : MicroEffect c (seedStep c)
  | roundMd5 (c : HashCore) (hp : c.phase = .round) (ha : c.alg = .md5) (hu : c.rnd.toNat ≤ 63) :
      MicroEffect c (roundMd5 c)
  | roundSha256 (c : HashCore) (hp : c.phase = .round) (ha : c.alg = .sha256) (hu : c.rnd.toNat ≤ 63) :
      MicroEffect c (roundSha256 c)
  | accum (c : HashCore) (hp : c.phase = .accum) : MicroEffect c (accumStep c)

/-- Everything a micro-step can do. -/
theorem microStep_effect {c c' : HashCore} (h : microStep c = some c') : MicroEffect c c' := by
  unfold microStep at h
  split at h
  · cases h
  · cases h; exact .loadMd5 c ‹_› ‹_›
  · cases h; exact .loadSha256 c ‹_› ‹_›
  · cases h
  · split at h
    · rename_i hb; cases h; exact .expand c ‹_› ‹_› hb.1 hb.2
    · cases h
  · cases h; exact .seed c ‹_›
  · split at h
    · rename_i hb; cases h; exact .roundMd5 c ‹_› ‹_› hb
    · cases h
  · split at h
    · rename_i hb; cases h; exact .roundSha256 c ‹_› ‹_› hb
    · cases h
  · cases h; exact .accum c ‹_›
  · cases h

section Steps
variable {c : HashCore}
theorem microStep_loadMd5 (hp : c.phase = .load) (ha : c.alg = .md5) : microStep c = some (loadMd5 c) := by
  simp [microStep, hp, ha]
theorem microStep_loadSha256 (hp : c.phase = .load) (ha : c.alg = .sha256) :
    microStep c = some (loadSha256 c) := by
  simp [microStep, hp, ha]
theorem microStep_expand (hp : c.phase = .expand) (ha : c.alg = .sha256) (hl : 16 ≤ c.rnd.toNat)
    (hu : c.rnd.toNat ≤ 63) : microStep c = some (expandStep c) := by
  simp [microStep, hp, ha, hl, hu]
theorem microStep_seed (hp : c.phase = .seed) : microStep c = some (seedStep c) := by
  simp [microStep, hp]
theorem microStep_roundMd5 (hp : c.phase = .round) (ha : c.alg = .md5) (hu : c.rnd.toNat ≤ 63) :
    microStep c = some (roundMd5 c) := by
  simp [microStep, hp, ha, hu]
theorem microStep_roundSha256 (hp : c.phase = .round) (ha : c.alg = .sha256) (hu : c.rnd.toNat ≤ 63) :
    microStep c = some (roundSha256 c) := by
  simp [microStep, hp, ha, hu]
theorem microStep_accum (hp : c.phase = .accum) : microStep c = some (accumStep c) := by
  simp [microStep, hp]
end Steps

section Accum
variable (c : HashCore)
@[simp] theorem afterBlock_h : (afterBlock c).h = c.h := by unfold afterBlock; split <;> rfl
@[simp] theorem afterBlock_v : (afterBlock c).v = c.v := by unfold afterBlock; split <;> rfl
@[simp] theorem afterBlock_m : (afterBlock c).m = c.m := by unfold afterBlock; split <;> rfl
@[simp] theorem afterBlock_w : (afterBlock c).w = c.w := by unfold afterBlock; split <;> rfl
@[simp] theorem afterBlock_alg : (afterBlock c).alg = c.alg := by unfold afterBlock; split <;> rfl
@[simp] theorem afterBlock_initd : (afterBlock c).initd = c.initd := by unfold afterBlock; split <;> rfl
@[simp] theorem afterBlock_fill : (afterBlock c).fill = c.fill := by unfold afterBlock; split <;> rfl
@[simp] theorem afterBlock_len : (afterBlock c).len = c.len := by unfold afterBlock; split <;> rfl
@[simp] theorem afterBlock_blkcnt : (afterBlock c).blkcnt = c.blkcnt := by unfold afterBlock; split <;> rfl
@[simp] theorem afterBlock_err : (afterBlock c).err = c.err := by unfold afterBlock; split <;> rfl
@[simp] theorem afterBlock_errcode : (afterBlock c).errcode = c.errcode := by unfold afterBlock; split <;> rfl
@[simp] theorem afterBlock_rnd : (afterBlock c).rnd = c.rnd := by unfold afterBlock; split <;> rfl
theorem afterBlock_buf :
    (afterBlock c).buf = if c.pstate = .tail2 then secondTail c.alg c.len else c.buf := by
  unfold afterBlock; split <;> simp_all [padSecond]
theorem afterBlock_pstate :
    (afterBlock c).pstate = if c.pstate = .tail2 then .last else .absorb := by
  unfold afterBlock; split <;> simp_all [padSecond]
theorem afterBlock_phase :
    (afterBlock c).phase = match c.pstate with | .tail2 => .load | .last => .done | .absorb => .idle := by
  unfold afterBlock; split <;> simp_all
end Accum

theorem microRun_one (c : HashCore) : microRun 1 c = microStep c := by
  unfold microRun; cases microStep c <;> rfl

/-- Runs compose. -/
theorem microRun_add (m n : Nat) (c : HashCore) : microRun (m + n) c = (microRun m c).bind (microRun n) := by
  induction m generalizing c with
  | zero => simp [microRun]
  | succ m ih =>
    rw [Nat.succ_add]
    simp only [microRun]
    cases microStep c with
    | none => rfl
    | some c' => exact ih c'

end Sys2Proof.Machine
end

