-- ==== Sys2Proof/Laws/PerInstr.lean ====
section
/-! SUPPORT. Per-instruction facts of the encoding: the encoder's word lies in its row of the opcode map. -/

namespace Sys2Proof.Laws.RowMatch

/-- The encoder writes the instruction to its row's port, and the row selects the word it writes (R77). -/
def Statement (i : Instr) : Prop := (encode i).1 = i.row.port ∧ i.row.selects (encode i).2 = true

theorem nop : Statement .nop := ⟨rfl, by decide⟩

theorem init (a : Alg) : Statement (.init a) := by
  cases a <;> exact ⟨rfl, by decide⟩

theorem absorb (b : Byte) : Statement (.absorb b) := by
  refine ⟨rfl, ?_⟩
  revert b
  unfold OpRow.selects
  decide +kernel

theorem final : Statement .final := ⟨rfl, by decide⟩

theorem data (w : Word) : Statement (.data w) := by
  refine ⟨rfl, ?_⟩
  show ((w &&& 0x00000000#32) == 0x00000000#32) = true
  simp

end Sys2Proof.Laws.RowMatch
end

