-- ==== Sys2Proof/Laws/Rounds.lean ====
section
/-! SUPPORT. Runs of micro-steps: the expansions and the rounds of a block as folds over the index. -/

namespace Sys2Proof.Machine

/-- "RND <- j + 1" does not wrap while j ≤ 63 (R36). -/
theorem rnd_succ {n : BitVec 7} (h : n.toNat ≤ 63) : (n + 1#7).toNat = n.toNat + 1 := by bv_omega

@[simp] theorem Md5Regs.get_put (r : Md5Regs) (v : Vector Word 8) : Md5Regs.get (r.put v) = r := by
  simp [Md5Regs.get, Md5Regs.put]
theorem Md5Regs.rd_put (r : Md5Regs) (v : Vector Word 8) (k : Nat) :
    rd (r.put v) k = if k = 0 then r.a else if k = 1 then r.b else if k = 2 then r.c else if k = 3 then r.d else rd v k := by
  simp only [Md5Regs.put, rd_wr]; split_ifs <;> first | rfl | omega
theorem Md5Regs.put_put (r r' : Md5Regs) (v : Vector Word 8) : r.put (r'.put v) = r.put v := by
  apply eq_of_rd; intro k hk; simp only [Md5Regs.rd_put]; split_ifs <;> rfl
@[simp] theorem Sha256Regs.get_toArray (r : Sha256Regs) : Sha256Regs.get r.toArray = r := rfl

/-- The last n + 1 rounds of an MD5 block (R154). -/
theorem microRun_roundsMd5 (n : Nat) (c : HashCore) (hp : c.phase = .round) (ha : c.alg = .md5)
    (hn : c.rnd.toNat + (n + 1) = 64) :
    microRun (n + 1) c = some { c with
      v := ((List.range' c.rnd.toNat (n + 1)).foldl (fun r j => md5Round j (rd c.m (md5Index j)) r) (Md5Regs.get c.v)).put c.v
      rnd := 64#7, phase := .accum } := by
  induction n generalizing c with
  | zero =>
    have h63 : c.rnd.toNat = 63 := by omega
    rw [microRun_one, microStep_roundMd5 hp ha (by omega)]
    have : c.rnd + 1#7 = 64#7 := by bv_omega
    simp [roundMd5, nextRound, h63, this, List.range']
  | succ n ih =>
    have hr := rnd_succ (n := c.rnd) (by omega)
    rw [microRun, microStep_roundMd5 hp ha (by omega)]
    have hph : (roundMd5 c).phase = .round := by
      simp [roundMd5, nextRound, hp]; omega
    have hrr : (roundMd5 c).rnd.toNat = c.rnd.toNat + 1 := hr
    simp only []
    rw [ih (roundMd5 c) hph ha (by omega), hrr]
    congr 1
    simp only [roundMd5, nextRound, Md5Regs.get_put, Md5Regs.put_put, List.range', List.foldl_cons]

/-- The last n + 1 rounds of a SHA-256 block (R176). -/
theorem microRun_roundsSha256 (n : Nat) (c : HashCore) (hp : c.phase = .round) (ha : c.alg = .sha256)
    (hn : c.rnd.toNat + (n + 1) = 64) :
    microRun (n + 1) c = some { c with
      v := ((List.range' c.rnd.toNat (n + 1)).foldl (fun r j => sha256Round j (rd c.w j) r) (Sha256Regs.get c.v)).toArray
      rnd := 64#7, phase := .accum } := by
  induction n generalizing c with
  | zero =>
    have h63 : c.rnd.toNat = 63 := by omega
    rw [microRun_one, microStep_roundSha256 hp ha (by omega)]
    have : c.rnd + 1#7 = 64#7 := by bv_omega
    simp [roundSha256, nextRound, h63, this, List.range']
  | succ n ih =>
    have hr := rnd_succ (n := c.rnd) (by omega)
    rw [microRun, microStep_roundSha256 hp ha (by omega)]
    have hph : (roundSha256 c).phase = .round := by
      simp [roundSha256, nextRound, hp]; omega
    have hrr : (roundSha256 c).rnd.toNat = c.rnd.toNat + 1 := hr
    simp only []
    rw [ih (roundSha256 c) hph ha (by omega), hrr]
    congr 1

/-- The last n + 1 expansions of a SHA-256 block (R143). -/
theorem microRun_expands (n : Nat) (c : HashCore) (hp : c.phase = .expand) (ha : c.alg = .sha256)
    (hl : 16 ≤ c.rnd.toNat) (hn : c.rnd.toNat + (n + 1) = 64) :
    microRun (n + 1) c = some { c with
      w := (List.range' c.rnd.toNat (n + 1)).foldl (fun w t => wr w t (scheduleWord w t)) c.w
      rnd := 64#7, phase := .seed } := by
  induction n generalizing c with
  | zero =>
    have h63 : c.rnd.toNat = 63 := by omega
    rw [microRun_one, microStep_expand hp ha (by omega) (by omega)]
    have : c.rnd + 1#7 = 64#7 := by bv_omega
    simp [expandStep, h63, this, List.range']
  | succ n ih =>
    have hr := rnd_succ (n := c.rnd) (by omega)
    rw [microRun, microStep_expand hp ha (by omega) (by omega)]
    have hph : (expandStep c).phase = .expand := by
      simp [expandStep, hp]; omega
    have hrr : (expandStep c).rnd.toNat = c.rnd.toNat + 1 := hr
    simp only []
    rw [ih (expandStep c) hph ha (by omega) (by omega), hrr]
    congr 1

/-- R142: W[t] reads only elements below t. -/
theorem scheduleWord_congr {w w' : Vector Word 64} {t : Nat} (ht : 16 ≤ t) (h : ∀ k, k < t → rd w k = rd w' k) :
    scheduleWord w t = scheduleWord w' t := by
  simp only [scheduleWord]
  rw [h _ (by omega), h _ (by omega), h _ (by omega), h _ (by omega)]
/-- The first n expansions depend on W[0..16] alone. -/
theorem expand_agree (n : Nat) (hn : n ≤ 48) (w w' : Vector Word 64) (h : ∀ t, t < 16 → rd w t = rd w' t) :
    ∀ t, t < 16 + n → rd ((List.range' 16 n).foldl (fun w t => wr w t (scheduleWord w t)) w) t =
      rd ((List.range' 16 n).foldl (fun w t => wr w t (scheduleWord w t)) w') t := by
  induction n with
  | zero => exact fun t ht => h t ht
  | succ n ih =>
    intro t ht
    have ih := ih (by omega)
    rw [List.range'_concat, List.foldl_append, List.foldl_append]
    simp only [List.foldl_cons, List.foldl_nil, Nat.one_mul]
    rw [rd_wr, rd_wr]
    split
    · exact scheduleWord_congr (by omega) (fun k hk => ih k hk)
    · exact ih t (by omega)

/-- The 48 expansions make the block's schedule, whatever W[16..64] held (R144). -/
theorem sha256Schedule_eq (w : Vector Word 64) (blk : Vector Byte 64) (h : ∀ t, t < 16 → rd w t = be32 blk (4 * t)) :
    (List.range' 16 48).foldl (fun w t => wr w t (scheduleWord w t)) w = sha256Schedule blk := by
  apply eq_of_rd
  intro t ht
  have e : sha256Schedule blk = (List.range' 16 48).foldl (fun w t => wr w t (scheduleWord w t))
    (tab 64 fun t => if t < 16 then be32 blk (4 * t) else 0#32) := by
    rw [sha256Schedule, List.range'_eq_map_range, List.foldl_map]
    simp only [Nat.add_comm 16]
  rw [e]
  refine expand_agree 48 (by omega) _ _ ?_ t (by omega)
  intro t ht; rw [h t ht, rd_tab_lt _ (by omega), if_pos ht]


/-- The 64 rounds of an MD5 block (R154). -/
theorem microRun_md5Rounds (c : HashCore) (hp : c.phase = .round) (ha : c.alg = .md5) (hr : c.rnd = 0#7) :
    microRun 64 c = some { c with
      v := ((List.range 64).foldl (fun r j => md5Round j (rd c.m (md5Index j)) r) (Md5Regs.get c.v)).put c.v
      rnd := 64#7, phase := .accum } := by
  have h := microRun_roundsMd5 63 c hp ha (by rw [hr]; rfl)
  rw [hr, show (0#7).toNat = 0 from rfl, ← List.range_eq_range'] at h
  exact h

/-- The 64 rounds of a SHA-256 block (R176). -/
theorem microRun_sha256Rounds (c : HashCore) (hp : c.phase = .round) (ha : c.alg = .sha256) (hr : c.rnd = 0#7) :
    microRun 64 c = some { c with
      v := ((List.range 64).foldl (fun r i => sha256Round i (rd c.w i) r) (Sha256Regs.get c.v)).toArray
      rnd := 64#7, phase := .accum } := by
  have h := microRun_roundsSha256 63 c hp ha (by rw [hr]; rfl)
  rw [hr, show (0#7).toNat = 0 from rfl, ← List.range_eq_range'] at h
  exact h

/-- LOAD and the 48 expansions of a SHA-256 block (R140, R143). -/
theorem microRun_load_expand (c : HashCore) (hp : c.phase = .load) (ha : c.alg = .sha256) :
    microRun 49 c = some { c with
      m := sha256Words c.buf, w := sha256Schedule c.buf, rnd := 64#7, phase := .seed } := by
  rw [show 49 = 1 + 48 from rfl, microRun_add, microRun_one, microStep_loadSha256 hp ha, Option.bind_some]
  have h := microRun_expands 47 (loadSha256 c) rfl ha (Nat.le_refl 16) rfl
  rw [show (loadSha256 c).rnd.toNat = 16 from rfl] at h
  rw [show 47 + 1 = 48 from rfl] at h
  rw [sha256Schedule_eq (loadSha256 c).w c.buf
    (fun t ht => by simp only [loadSha256]; rw [rd_tab_lt _ (by omega), if_pos ht])] at h
  exact h

end Sys2Proof.Machine
end

