-- ==== Sys2Proof/Laws/Step.lean ====
section
/-! SUPPORT. What one access and one step can do. -/

namespace Sys2Proof.Machine

/-- A write to a port: the decoded command, or the ILLEGAL error. -/
theorem portWrite_next {p : Port} {x : Word} {s t : State} (h : portWrite p x s = .next t) :
    (∃ i, decode p x = .ok i ∧ exec i s = .next t) ∨
      ((∃ e, decode p x = .error e) ∧ t = s.setHc (raiseErr .illegal s.hc)) := by
  unfold portWrite at h
  split at h
  · exact .inl ⟨_, ‹_›, h⟩
  · cases h; exact .inr ⟨⟨_, ‹_›⟩, rfl⟩

/-- An admitted write: a command at CMD or DATA, and nothing elsewhere. -/
theorem windowWrite_eq (off : Nat) (x : Word) (s : State) :
    (regAt off = some .cmd ∧ windowWrite off x s = portWrite .cmd x s) ∨
      (regAt off = some .data ∧ windowWrite off x s = portWrite .data x s) ∨
      (regAt off ≠ some .cmd ∧ regAt off ≠ some .data ∧ windowWrite off x s = .next s) := by
  unfold windowWrite
  split <;> simp_all

/-- What one step can be. -/
inductive StepEffect : State → State → Prop where
  /-- Nothing is enabled. -/
  | rest (s : State) (ha : nextAgent s = none) : StepEffect s s
  /-- An engine micro-step. -/
  | engine (s : State) (c : HashCore) (ha : nextAgent s = some .engine) (hm : MicroEffect s.hc c) :
      StepEffect s (s.useTurn.setHc c)
  /-- The host executes a command. -/
  | command (s : State) (a : Access) (rest : List HostOp) (i : Instr) (p : Port) (x : Word) (c : HashCore)
      (ha : nextAgent s = some .host) (hh : s.host = .access a :: rest) (hd : decode p x = .ok i)
      (hp : a = .write 0 4 x ∧ p = .cmd ∨ a = .write 8 4 x ∧ p = .data)
      (he : CommandEffect i s.hc c) : StepEffect s { s.useTurn with host := rest, hc := c }
  /-- The host writes an ILLEGAL word to CMD. -/
  | illegal (s : State) (rest : List HostOp) (x : Word) (e : DecodeError)
      (ha : nextAgent s = some .host) (hh : s.host = .access (.write 0 4 x) :: rest)
      (hd : decode .cmd x = .error e) :
      StepEffect s { s.useTurn with host := rest, hc := raiseErr .illegal s.hc }
  /-- The host writes where writes are ignored. -/
  | ignored (s : State) (rest : List HostOp) (off : Int) (x : Word)
      (ha : nextAgent s = some .host) (hh : s.host = .access (.write off 4 x) :: rest)
      (h0 : off ≠ 0) (h8 : off ≠ 8) : StepEffect s { s.useTurn with host := rest }
  /-- The host reads. -/
  | read (s : State) (rest : List HostOp) (off : Int)
      (ha : nextAgent s = some .host) (hh : s.host = .access (.read off 4) :: rest) :
      StepEffect s { s.useTurn with host := rest, reads := windowRead s.hc off.toNat :: s.reads }
  /-- The host polls STATUS and is still waiting. -/
  | poll (s : State) (rest : List HostOp) (ha : nextAgent s = some .host) (hh : s.host = .wait :: rest)
      (hb : s.hc.status.getLsbD 0 = true) : StepEffect s { s.useTurn with reads := s.hc.status :: s.reads }
  /-- The host polls STATUS and is done waiting. -/
  | waited (s : State) (rest : List HostOp) (ha : nextAgent s = some .host) (hh : s.host = .wait :: rest)
      (hb : s.hc.status.getLsbD 0 = false) :
      StepEffect s { s.useTurn with host := rest, reads := s.hc.status :: s.reads }

theorem regAt_cmd {off : Nat} (h : regAt off = some .cmd) : off = 0 := by
  by_contra hne
  rw [regAt, if_neg hne] at h
  repeat' split at h
  all_goals simp at h

theorem regAt_data {off : Nat} (h : regAt off = some .data) : off = 8 := by
  by_contra hne
  simp only [regAt, if_neg hne] at h
  repeat' split at h
  all_goals simp at h

theorem admits_size {a : Access} (h : admits a = true) : a.size = 4 := by
  simp only [admits, Bool.and_eq_true, decide_eq_true_eq] at h; exact h.1.1.1

theorem admits_nonneg {a : Access} (h : admits a = true) : 0 ≤ a.off := by
  simp only [admits, Bool.and_eq_true, decide_eq_true_eq] at h; exact h.1.2

/-- Everything one step can do when it answers a next state. -/
theorem step_effect {s t : State} (h : step s = .next t) : StepEffect s t := by
  unfold step at h
  split at h
  · cases h; exact .rest s ‹_›
  · rename_i ha
    unfold hostTurn at h
    split at h
    · rename_i hh
      simp only [State.useTurn_host] at hh
      unfold nextAgent at ha
      rw [hh] at ha
      cases hb : s.hc.busy <;> simp [hb] at ha
    · rename_i a rest hh
      simp only [State.useTurn_host] at hh
      unfold busAccess at h
      split at h
      · rename_i hadm
        split at h
        · rename_i off sz
          have := admits_size hadm
          simp only [Access.size] at this
          subst this
          cases h
          exact .read s rest off ha hh
        · rename_i off sz x
          have hsz := admits_size hadm
          have hnn := admits_nonneg hadm
          simp only [Access.size] at hsz
          simp only [Access.off] at hnn
          subst hsz
          rcases windowWrite_eq off.toNat x { s.useTurn with host := rest } with ⟨hr, hw⟩ | ⟨hr, hw⟩ | ⟨hc, hd, hw⟩
          · have h0 := regAt_cmd hr
            have hoff : off = 0 := by omega
            subst hoff
            rw [hw] at h
            rcases portWrite_next h with ⟨i, hdec, hex⟩ | ⟨⟨e, hdec⟩, ht⟩
            · obtain ⟨c, ht, he⟩ := exec_next hex
              subst ht
              exact .command s _ rest i .cmd x c ha hh hdec (.inl ⟨rfl, rfl⟩) he
            · subst ht
              exact .illegal s rest x e ha hh hdec
          · have h8 := regAt_data hr
            have hoff : off = 8 := by omega
            subst hoff
            rw [hw] at h
            rcases portWrite_next h with ⟨i, hdec, hex⟩ | ⟨⟨e, hdec⟩, ht⟩
            · obtain ⟨c, ht, he⟩ := exec_next hex
              subst ht
              exact .command s _ rest i .data x c ha hh hdec (.inr ⟨rfl, rfl⟩) he
            · cases hdec
          · rw [hw] at h
            cases h
            refine .ignored s rest off x ha hh ?_ ?_
            · rintro rfl; exact hc rfl
            · rintro rfl; exact hd rfl
      · cases h
    · rename_i rest hh
      simp only [State.useTurn_host] at hh
      split at h
      · rename_i hb
        cases h
        exact .poll s rest ha hh hb
      · rename_i hb
        cases h
        exact .waited s rest ha hh (by simpa using hb)
  · rename_i ha
    unfold engineTurn at h
    split at h
    · rename_i c hm
      cases h
      exact .engine s c ha (microStep_effect hm)
    · cases h

end Sys2Proof.Machine
end

