-- ==== Sys2Proof/Tests/Slice0.lean ====
section
/-! SUPPORT. Small tests of the model. Every expected value is the spec's own: 95_test_vectors.md (named by its row) or the rule
named. The theorems named witness_… show that the hypotheses of the statements can be met. -/

namespace Sys2Proof.Tests

open Sys2Proof Sys2Proof.Machine

/-- The next state of an outcome. -/
def stateOf : Host.Outcome State Fault Refusal → Option State
  | .next s => some s
  | .fault _ => none
  | .refused _ => none

/-- The fault of an outcome. -/
def faultOf : Host.Outcome State Fault Refusal → Option Fault
  | .next _ => none
  | .fault f => some f
  | .refused _ => none

/-- A HASHCORE right after INIT. -/
def idle (a : Alg) : State := { State.reset with hc := initCore a }

/-- A HASHCORE after INIT with FILL bytes taken. -/
def filled (a : Alg) (fill : BitVec 6) : State :=
  { idle a with hc := { initCore a with fill := fill, len := fill.setWidth 64 } }

/-- A HASHCORE after INIT in another phase and round. -/
def inPhase (a : Alg) (p : Phase) (r : BitVec 7) : State :=
  { idle a with hc := { initCore a with phase := p, rnd := r } }

/-- A state with host accesses pending and the host's turn next. -/
def withHost (s : State) (ops : List HostOp) : State := { s with host := ops, sched := [.host] }

/-- STATUS after a step on a word of the table (CMD) or of the DATA port. -/
def statusAfter (s : State) (p : Port) (w : Word) : Option Word :=
  (stateOf (step (s.placeWrite p w))).map fun t => t.hc.status

/-! ### WellFormed: an ill-formed term for each check -/

theorem test_wf_absorb_byte : (HostLine.absorb 256).wf = false ∧ (HostLine.absorb 255).wf = true := by decide
theorem test_wf_data_word : (HostLine.data (2 ^ 32)).wf = false ∧ (HostLine.data (2 ^ 32 - 1)).wf = true := by decide
theorem test_wf_wr_word : (HostLine.wr .cmd (2 ^ 32)).wf = false := by decide
theorem test_wf_cmd_word : (HostLine.cmd (2 ^ 32)).wf = false := by decide
theorem test_wf_absorbw_word : (HostLine.absorbw (2 ^ 32)).wf = false := by decide
theorem test_wf_absorbs_text : (HostLine.absorbs [0x61, 128]).wf = false ∧ (HostLine.absorbs [0x61]).wf = true := by
  decide
theorem test_wf_hash_text : (HostLine.hash .md5 [128]).wf = false := by decide

/-! ### Decode: words written out from 30_encoding.md R72 to R75 -/

theorem test_decode_nop : decode .cmd 0b00000000000000000000000000000000#32 = .ok .nop := by rfl
theorem test_decode_init :
    decode .cmd 0b00000001000000000000000000000000#32 = .ok (.init .md5) ∧
      decode .cmd 0b00000001000000000000000000000001#32 = .ok (.init .sha256) := ⟨rfl, rfl⟩
theorem test_decode_absorb : decode .cmd 0b00000010000000000000000010100101#32 = .ok (.absorb 0xA5#8) := by rfl
theorem test_decode_final : decode .cmd 0b00000011000000000000000000000000#32 = .ok .final := by rfl
theorem test_decode_data : decode .data 0b00000100000000110000001000000001#32 = .ok (.data 0x04030201#32) := by rfl
/-- S6, S7, S8, S9: words 95_test_vectors.md 2.7 calls ILLEGAL. -/
theorem test_decode_illegal :
    decode .cmd 0x01000002#32 = .error .reservedOperandBit ∧ decode .cmd 0x04000000#32 = .error .reservedOpcode ∧
      decode .cmd 0x02000161#32 = .error .reservedOperandBit ∧ decode .cmd 0x00000001#32 = .error .reservedOperandBit :=
  ⟨rfl, rfl, rfl, rfl⟩
/-- R79's table of encodings. -/
theorem test_encode_words :
    encode (.init .sha256) = (.cmd, 0x01000001#32) ∧ encode (.absorb 0x61#8) = (.cmd, 0x02000061#32) ∧
      encode .final = (.cmd, 0x03000000#32) ∧ encode .nop = (.cmd, 0x00000000#32) := by decide

/-! ### Host commands: 95_test_vectors.md 2.7 -/

/-- S2. -/
theorem test_nop_after_reset : statusAfter State.reset .cmd 0x00000000#32 = some 0x00000000#32 := by decide
/-- S4, S5. -/
theorem test_init_status :
    statusAfter State.reset .cmd 0x01000000#32 = some 0x00000008#32 ∧
      statusAfter State.reset .cmd 0x01000001#32 = some 0x00000018#32 := by decide
/-- S3: ERR_NOINIT. -/
theorem test_absorb_before_init : statusAfter State.reset .cmd 0x02000061#32 = some 0x000000A4#32 := by decide
/-- S10. -/
theorem test_absorb : (stateOf (exec (.absorb 0x61#8) (idle .md5))).map (fun t => (t.hc.status, rd t.hc.buf 0, t.hc.len)) =
    some (0x00000108#32, 0x61#8, 1#64) := by decide
/-- S11: ERR_ALIGN. -/
theorem test_data_misaligned :
    (stateOf (exec (.data 0x64636261#32) (filled .md5 1#6))).map (fun t => (t.hc.status, t.hc.len)) =
      some (0x0000016C#32, 1#64) := by decide
/-- S12. -/
theorem test_data :
    (stateOf (exec (.data 0x64636261#32) (idle .md5))).map
        (fun t => (t.hc.status, [0, 1, 2, 3].map (rd t.hc.buf), t.hc.len)) =
      some (0x00000408#32, [0x61#8, 0x62#8, 0x63#8, 0x64#8], 4#64) := by decide
/-- S19. -/
theorem test_final_empty :
    (stateOf (exec .final (idle .sha256))).map (fun t => (t.hc.status, rd t.hc.buf 0, rd t.hc.buf 63)) =
      some (0x11000019#32, 0x80#8, 0x00#8) := by decide
/-- Row L = 56 of 95_test_vectors.md 2.1, and P4 line 58. -/
theorem test_final_two_blocks :
    (stateOf (exec .final (filled .sha256 56#6))).map (fun t => (t.hc.status, rd t.hc.buf 56, rd t.hc.buf 57)) =
      some (0x09000019#32, 0x80#8, 0x00#8) := by decide
/-- S20: a second FINAL while BUSY is rejected. -/
theorem test_final_while_busy :
    statusAfter { idle .sha256 with hc := { initCore .sha256 with phase := .load, pstate := .last } } .cmd 0x03000000#32
      = some 0x1100003D#32 := by decide
/-- S7, S8: the first error is kept. -/
theorem test_illegal_word_is_sticky :
    statusAfter (idle .sha256) .cmd 0x04000000#32 = some 0x0000009C#32 ∧
      statusAfter { idle .sha256 with hc := raiseErr .illegal (initCore .sha256) } .cmd 0x02000161#32
        = some 0x0000009C#32 := by decide
/-- 95_test_vectors.md 2.7, access faults. -/
theorem test_bus_faults :
    faultOf (step (withHost State.reset [.access (.write 0x000 1 0#32)])) = some (.busFault 0x000) ∧
      faultOf (step (withHost State.reset [.access (.read 0x006 4)])) = some (.busFault 0x006) ∧
      faultOf (step (withHost State.reset [.access (.read 0x200 4)])) = some (.busFault 0x200) := by decide
/-- The words of the opcode table run as the first command after reset. -/
theorem test_fetch_word :
    decodeTableWord 32 0x01000001 = some (.init .sha256) ∧ decodeTableWord 32 0x64636261 = some (.data 0x64636261#32) ∧
      (stateOf (step (State.reset.withFetchWord 32 0x01000001))).map (fun t => t.hc.status) = some 0x00000018#32 := by
  decide

/-! ### Micro-steps and functions: 95_test_vectors.md 2.1 to 2.6 -/

/-- 2.1: the length field at LEN = 2^61 + 1 and 2^64 − 1. -/
theorem test_length_field :
    lenField .md5 (BitVec.ofNat 64 (2 ^ 61 + 1)) = [8#8, 0#8, 0#8, 0#8, 0#8, 0#8, 0#8, 0#8] ∧
      lenField .sha256 (BitVec.ofNat 64 (2 ^ 64 - 1)) =
        [0xff#8, 0xff#8, 0xff#8, 0xff#8, 0xff#8, 0xff#8, 0xff#8, 0xf8#8] := by decide
/-- 2.2: g at the quartile edges. -/
theorem test_md5_index :
    [0, 15, 16, 17, 31, 32, 33, 47, 48, 49, 63].map md5Index = [0, 15, 1, 6, 12, 5, 8, 2, 0, 7, 9] := by decide
/-- 2.3: the sigma functions at 0x61626380. -/
theorem test_sigmas :
    smallSigma0 0x61626380#32 = 0x940e90ef#32 ∧ smallSigma1 0x61626380#32 = 0x7da86405#32 ∧
      bigSigma0 0x61626380#32 = 0x8dd59276#32 ∧ bigSigma1 0x61626380#32 = 0xc0b865f2#32 := by decide
/-- 2.4, row j = 63. -/
theorem test_md5_round :
    md5Round 63 0xdeadbeef#32 ⟨0x12345678#32, 0x9abcdef0#32, 0x0fedcba9#32, 0x87654321#32⟩ =
      ⟨0x87654321#32, 0x64b71673#32, 0x9abcdef0#32, 0x0fedcba9#32⟩ := by decide
/-- 2.5, row i = 63. -/
theorem test_sha256_round :
    sha256Round 63 0x80000000#32 ⟨1#32, 2#32, 3#32, 4#32, 5#32, 6#32, 7#32, 8#32⟩ =
      ⟨0x9b197f83#32, 1#32, 2#32, 3#32, 0x5b117b84#32, 5#32, 6#32, 7#32⟩ := by decide
/-- 2.3: the schedule word 17 of "abc". -/
theorem test_expand :
    scheduleWord (tab 64 fun t => if t = 0 then 0x61626380#32 else if t = 15 then 0x18#32 else if t = 16 then 0x61626380#32 else 0#32) 17
      = 0x000f0000#32 := by decide
/-- 2.2: BUF = 61 62 63 80 little-endian; R140: big-endian. -/
theorem test_word_assembly :
    let b : Vector Byte 64 := wrBytes (Vector.replicate 64 0#8) 0 [0x61#8, 0x62#8, 0x63#8, 0x80#8]
    le32 b 0 = 0x80636261#32 ∧ be32 b 0 = 0x61626380#32 := by decide
/-- 2.6: the wrap of E_ACCUM. -/
theorem test_accum_wraps :
    rd (addRegs .sha256 (tab 8 fun _ => 0xffffffff#32) (tab 8 fun _ => 1#32)) 7 = 0#32 := by decide
/-- R194: after a message block the core waits for more, with RND left at 64 (2.6, STATUS 0x00400008). -/
theorem test_accum_to_idle :
    (stateOf (step (inPhase .md5 .accum 64#7))).map (fun t => (t.hc.status, t.hc.blkcnt)) =
      some (0x00400008#32, 1#32) := by decide
/-- R192's example: E_SEED after INIT md5. -/
theorem test_seed :
    (stateOf (step (inPhase .md5 .seed 0#7))).map (fun t => [0, 1, 2, 3].map (rd t.hc.v)) =
      some [0x67452301#32, 0xefcdab89#32, 0x98badcfe#32, 0x10325476#32] := by decide
/-- 2.6: the text of K1's registers begins d41d8cd9. -/
theorem test_digest_text :
    (digestText .md5 (tab 8 fun k => if k = 0 then 0xd98c1dd4#32 else 0#32)).take 8 =
      ['d', '4', '1', 'd', '8', 'c', 'd', '9'] := by decide
/-- R80: what HASH stands for. -/
theorem test_hash_line :
    expandLine (.hash .md5 [0x61]) =
      [.access (.write 0 4 0x01000000#32), .access (.write 0 4 0x02000061#32), .wait,
        .access (.write 0 4 0x03000000#32), .wait] := by decide

/-! ### Witnesses: each statement's hypotheses can be met, at the edges of their ranges -/

theorem idle_inv (a : Alg) : (idle a).Inv := by
  constructor
  case md5_regs =>
    intro h k h1 h2
    cases a with
    | md5 => exact ⟨by interval_cases k <;> decide, rd_replicate k⟩
    | sha256 => cases h
  all_goals cases a <;> simp [idle, initCore, Phase.code, PState.code, ErrCode.code, HashCore.busy, Phase.busy]

/-- A busy state that meets R44. -/
theorem load_inv (a : Alg) : (inPhase a .load 0#7).Inv := by
  constructor
  case md5_regs =>
    intro h k h1 h2
    cases a with
    | md5 => exact ⟨by interval_cases k <;> decide, rd_replicate k⟩
    | sha256 => cases h
  all_goals cases a <;>
    simp [inPhase, idle, initCore, Phase.code, PState.code, ErrCode.code, HashCore.busy, Phase.busy]

theorem witness_DecodeOfEncodeIsTheInstruction : ∃ i : Instr, i.wf = true := ⟨.absorb 0xff#8, rfl⟩
theorem witness_EncodeOfDecodeIsTheWord : ∃ p w i, decode p w = .ok i := ⟨.cmd, 0x020000ff#32, .absorb 0xff#8, rfl⟩
theorem witness_DecodeFollowsTheOpcodeMap :
    (∃ w : Word, w &&& 0xFFFFFFFE#32 = 0x01000000#32) ∧ (∃ w : Word, w &&& 0xFFFFFF00#32 = 0x02000000#32) ∧
      ∃ w : Word, w ≠ 0x00000000#32 ∧ w &&& 0xFFFFFFFE#32 ≠ 0x01000000#32 ∧ w &&& 0xFFFFFF00#32 ≠ 0x02000000#32 ∧
        w ≠ 0x03000000#32 :=
  ⟨⟨0x01000001#32, by decide⟩, ⟨0x020000ff#32, by decide⟩, ⟨0x02000100#32, by decide⟩⟩
theorem witness_IllegalWords :
    (∃ w e, decode .cmd w = .error e) ∧ ∃ w, ¬∃ e, decode .cmd w = .error e :=
  ⟨⟨0xff000000#32, .reservedOpcode, rfl⟩, ⟨0x03000000#32, by rintro ⟨e, h⟩; cases h⟩⟩
theorem witness_NopChangesNothing : ∃ w : Word, w.toNat / 2 ^ 24 = 0 ∧ w.toNat % 2 ^ 24 ≠ 0 := ⟨1#32, by decide⟩
theorem witness_InitLoadsInitialValues :
    (∃ w : Word, w.toNat / 2 ^ 24 = 1 ∧ w.toNat % 2 ^ 24 = 2) ∧ ∃ w : Word, w.toNat / 2 ^ 24 = 1 ∧ w.toNat % 2 ^ 24 = 2 ^ 24 - 1 :=
  ⟨⟨0x01000002#32, by decide⟩, ⟨0x01ffffff#32, by decide⟩⟩
theorem witness_AbsorbAppendsOneByte :
    (∃ s : State, s.hc.initd = true ∧ s.hc.phase = .idle ∧ s.hc.fill.toNat = 63) ∧
      ∃ s : State, s.hc.initd = true ∧ s.hc.phase = .idle ∧ s.hc.fill.toNat = 62 :=
  ⟨⟨filled .md5 63#6, by decide⟩, ⟨filled .md5 62#6, by decide⟩⟩
theorem witness_DataAppendsFourBytes :
    (∃ s : State, s.hc.initd = true ∧ s.hc.phase = .idle ∧ s.hc.fill.toNat % 4 = 0 ∧ s.hc.fill.toNat = 60) ∧
      ∃ s : State, s.hc.initd = true ∧ s.hc.phase = .idle ∧ s.hc.fill.toNat % 4 = 0 ∧ s.hc.fill.toNat = 56 :=
  ⟨⟨filled .md5 60#6, by decide⟩, ⟨filled .md5 56#6, by decide⟩⟩
theorem witness_FinalBuildsTheLastBlock (a : Alg) :
    ∃ s : State, s.hc.initd = true ∧ s.hc.phase = .idle ∧ s.hc.fill.toNat = 55 ∧ s.hc.alg = a :=
  ⟨filled a 55#6, by cases a <;> decide⟩
theorem witness_FinalBuildsTheFirstOfTwoTailBlocks :
    (∃ s : State, s.hc.initd = true ∧ s.hc.phase = .idle ∧ s.hc.fill.toNat = 56) ∧
      ∃ s : State, s.hc.initd = true ∧ s.hc.phase = .idle ∧ s.hc.fill.toNat = 63 :=
  ⟨⟨filled .md5 56#6, by decide⟩, ⟨filled .sha256 63#6, by decide⟩⟩
theorem witness_RejectedDataCommands :
    (∃ s : State, s.hc.initd = false) ∧
      (∃ s : State, s.hc.initd = true ∧ s.hc.phase ≠ .idle ∧ s.hc.phase ≠ .done) ∧
      (∃ s : State, s.hc.initd = true ∧ s.hc.phase = .done) ∧
      ∃ s : State, s.hc.initd = true ∧ s.hc.phase = .idle ∧ s.hc.fill.toNat % 4 ≠ 0 :=
  ⟨⟨State.reset, by decide⟩, ⟨inPhase .md5 .accum 64#7, by decide⟩, ⟨inPhase .md5 .done 64#7, by decide⟩,
    ⟨filled .md5 63#6, by decide⟩⟩
theorem witness_ErrorPrimitive : (∃ c : HashCore, c.err = false) ∧ ∃ c : HashCore, c.err = true :=
  ⟨⟨HashCore.reset, rfl⟩, ⟨raiseErr .busy HashCore.reset, rfl⟩⟩
theorem witness_DataCommandsLeaveTheRestUnchanged (b : Byte) :
    ∃ s t : State, (∀ a, Instr.absorb b ≠ .init a) ∧ exec (.absorb b) s = .next t :=
  ⟨idle .md5, _, by simp, rfl⟩
/-- For Md5LoadReadsLittleEndianWords, Sha256LoadReadsBigEndianWords and ScheduleIsCompleteBeforeTheRounds. -/
theorem witness_Load (a : Alg) : ∃ c : HashCore, c.phase = .load ∧ c.alg = a := ⟨(inPhase a .load 0#7).hc, rfl, rfl⟩
theorem witness_DataWordsLoadAsTheyWereWritten :
    ∃ (buf : Vector Byte 64) (x : Nat → Word),
      ∀ k n, k < 16 → n < 4 → rd buf (4 * k + n) = (x k).extractLsb' (8 * n) 8 :=
  ⟨Vector.replicate 64 0#8, fun _ => 0#32, fun k n _ _ => by rw [rd_replicate]; ext i hi; simp⟩
theorem witness_ExpandWritesOneScheduleWord (r : BitVec 7) (h : r = 16#7 ∨ r = 63#7) :
    ∃ c : HashCore, c.phase = .expand ∧ c.alg = .sha256 ∧ 16 ≤ c.rnd.toNat ∧ c.rnd.toNat ≤ 63 :=
  ⟨(inPhase .sha256 .expand r).hc, by rcases h with rfl | rfl <;> decide⟩
theorem witness_SeedCopiesTheRunningState (a : Alg) : ∃ c : HashCore, c.phase = .seed ∧ c.alg = a :=
  ⟨(inPhase a .seed 0#7).hc, rfl, rfl⟩
/-- For Md5RoundUpdatesTheTransientRegisters and Sha256RoundUpdatesTheTransientRegisters. -/
theorem witness_Rounds (a : Alg) (r : BitVec 7) (h : r = 0#7 ∨ r = 63#7) :
    ∃ c : HashCore, c.phase = .round ∧ c.alg = a ∧ c.rnd.toNat ≤ 63 :=
  ⟨(inPhase a .round r).hc, rfl, rfl, by rcases h with rfl | rfl <;> simp [inPhase]⟩
theorem witness_AccumAddsAndSequences (a : Alg) (q : PState) :
    ∃ c : HashCore, c.phase = .accum ∧ c.alg = a ∧ c.pstate = q :=
  ⟨{ (inPhase a .accum 64#7).hc with pstate := q }, rfl, rfl, rfl⟩
theorem witness_MicroStepsWriteOnlyTheirRegisters :
    (∃ c c', microStep c = some c' ∧ c.phase = .accum ∧ c.pstate ≠ .tail2) ∧
      (∃ c c', microStep c = some c' ∧ c.phase = .round ∧ c.alg = .md5) ∧
      ∃ c c', microStep c = some c' ∧ c.phase = .seed ∧ c.alg = .sha256 :=
  ⟨⟨(inPhase .md5 .accum 64#7).hc, _, rfl, rfl, by decide⟩, ⟨(inPhase .md5 .round 0#7).hc, _, rfl, rfl, rfl⟩,
    ⟨(inPhase .sha256 .seed 0#7).hc, _, rfl, rfl, rfl⟩⟩
/-- For EngineHasAStepExactlyWhenBusy and EngineComesToRest. -/
theorem witness_EngineInvariant (a : Alg) : (∃ c : HashCore, c.Inv ∧ c.busy = true) ∧ ∃ c : HashCore, c.Inv ∧ c.busy = false :=
  ⟨⟨(inPhase a .load 0#7).hc, load_inv a, rfl⟩, ⟨(idle a).hc, idle_inv a, rfl⟩⟩
theorem witness_OneBlockRunComputesCompress (a : Alg) (q : PState) :
    ∃ c : HashCore, c.phase = .load ∧ c.alg = a ∧ c.pstate = q :=
  ⟨{ (inPhase a .load 0#7).hc with pstate := q }, rfl, rfl, rfl⟩
theorem witness_TailBlocks :
    (∃ (msg : List Byte) (buf : Vector Byte 64), msg.length % 64 = 55 ∧
        ∀ i, i < 55 → rd buf i = msg.getD (64 * (msg.length / 64) + i) 0#8) ∧
      ∃ (msg : List Byte) (buf : Vector Byte 64), msg.length % 64 = 56 ∧
        ∀ i, i < 56 → rd buf i = msg.getD (64 * (msg.length / 64) + i) 0#8 :=
  ⟨⟨List.replicate 55 0#8, Vector.replicate 64 0#8, by decide, by decide⟩,
    ⟨List.replicate 56 0#8, Vector.replicate 64 0#8, by decide, by decide⟩⟩
theorem witness_Schedw :
    (∃ c : HashCore, c.phase = .round ∧ c.alg = .md5 ∧ c.rnd.toNat ≤ 63) ∧
      (∃ c : HashCore, c.phase = .round ∧ c.alg = .sha256) ∧ ∃ c : HashCore, c.phase ≠ .round :=
  ⟨⟨(inPhase .md5 .round 63#7).hc, by decide⟩, ⟨(inPhase .sha256 .round 0#7).hc, by decide⟩,
    ⟨HashCore.reset, by decide⟩⟩
theorem witness_AdmittedRead (off : Nat) (h : off = 0x000 ∨ off = 0x1FC) :
    ∃ s : State, off < 0x200 ∧ off % 4 = 0 ∧ nextAgent s = some .host ∧ s.host = [.access (.read off 4)] :=
  ⟨withHost (inPhase .md5 .load 0#7) [.access (.read off 4)], by rcases h with rfl | rfl <;> decide⟩
theorem witness_WritesElsewhere (off : Nat) (h : off = 0x004 ∨ off = 0x00C ∨ off = 0x1FC) :
    ∃ s : State, off < 0x200 ∧ off % 4 = 0 ∧ off ≠ 0x000 ∧ off ≠ 0x008 ∧ nextAgent s = some .host ∧
      s.host = [.access (.write off 4 7#32)] :=
  ⟨withHost (idle .md5) [.access (.write off 4 7#32)], by rcases h with rfl | rfl | rfl <;> decide⟩
theorem witness_BusFault (a : Access) (h : a = .read 0x000 8 ∨ a = .read 0x1FE 4 ∨ a = .read (-4) 4 ∨ a = .write 0x200 4 0#32) :
    ∃ s : State, nextAgent s = some .host ∧ s.host = [.access a] ∧
      (a.size ≠ 4 ∨ a.off % 4 ≠ 0 ∨ a.off < 0 ∨ 0x200 ≤ a.off) :=
  ⟨withHost (idle .md5) [.access a], by rcases h with rfl | rfl | rfl | rfl <;> decide⟩
theorem witness_StepRunsTheDecodedCommand (p : Port) :
    ∃ s w i, nextAgent s = some .host ∧
      s.host = [.access (.write (match p with | .cmd => 0x000 | .data => 0x008) 4 w)] ∧ decode p w = .ok i := by
  cases p with
  | cmd => exact ⟨withHost (idle .md5) [.access (.write 0x000 4 0x03000000#32)], _, .final, rfl, rfl, rfl⟩
  | data => exact ⟨withHost (idle .md5) [.access (.write 0x008 4 5#32)], _, .data 5#32, rfl, rfl, rfl⟩
theorem witness_StepOfAnIllegalWord :
    ∃ s w e, nextAgent s = some .host ∧ s.hc.busy = true ∧ s.host = [.access (.write 0x000 4 w)] ∧
      decode .cmd w = .error e :=
  ⟨withHost (inPhase .md5 .load 0#7) [.access (.write 0x000 4 0xff000000#32)], _, .reservedOpcode, rfl, rfl, rfl, rfl⟩
theorem witness_PlacedWord : ∃ i, decodeTableWord 32 0x03000000 = some i := ⟨.final, rfl⟩
theorem witness_OnlyAnEnabledAgentMoves :
    (∃ s : State, s.hc.busy = false ∧ s.host ≠ []) ∧ (∃ s : State, s.hc.busy = true ∧ s.host = []) ∧
      (∃ s : State, s.hc.busy = true ∧ s.host ≠ [] ∧ s.sched = [.engine]) ∧
      ∃ s : State, s.hc.busy = true ∧ s.host ≠ [] ∧ s.sched = [] :=
  ⟨⟨withHost (idle .md5) [.wait], by decide⟩, ⟨inPhase .md5 .load 0#7, by decide⟩,
    ⟨{ withHost (inPhase .md5 .load 0#7) [.wait] with sched := [.engine] }, by decide⟩,
    ⟨{ withHost (inPhase .md5 .load 0#7) [.wait] with sched := [] }, by decide⟩⟩
theorem witness_EngineTurn : ∃ s c, nextAgent s = some .engine ∧ microStep s.hc = some c :=
  ⟨inPhase .md5 .seed 0#7, _, rfl, rfl⟩
theorem witness_IdleMachine : ∃ s : State, s.host = [] ∧ s.hc.busy = false := ⟨State.reset, rfl, rfl⟩
theorem witness_Wait :
    (∃ s : State, nextAgent s = some .host ∧ s.host = [.wait] ∧ s.hc.busy = true) ∧
      ∃ s : State, nextAgent s = some .host ∧ s.host = [.wait] ∧ s.hc.busy = false :=
  ⟨⟨withHost (inPhase .md5 .load 0#7) [.wait], by decide⟩, ⟨withHost (idle .md5) [.wait], by decide⟩⟩
/-- For StepKeepsTheInvariants, StepKeepsFillEqualToLengthModuloBlock, OnlyABusFaultStopsTheMachine, PhaseAndRoundMoveOnlyByTheTable
and HostAccessesKeepTheirOrder: a busy state that meets
them and whose step answers. -/
theorem witness_StepKeepsTheInvariants (a : Alg) :
    ∃ s t, State.Inv s ∧ s.hc.Counts ∧ step s = .next t ∧ s.hc.phase = .load := by
  refine ⟨inPhase a .load 0#7, (inPhase a .load 0#7).useTurn.setHc (match a with | .md5 => loadMd5 (inPhase a .load 0#7).hc | .sha256 => loadSha256 (inPhase a .load 0#7).hc), load_inv a, ⟨?_, ?_⟩, ?_, rfl⟩
  · intro h; cases h
  · intro _ _; rfl
  · cases a <;> rfl
/-- The second clause of OnlyInitSelectsAndClears: a step that is no INIT, with an error recorded; the first clause's is the
first of witness_WholeMachineRules. -/
theorem witness_OnlyInitSelectsAndClears : ∃ s t, step s = .next t ∧ (¬∃ a, InitTurn s a) ∧ s.hc.err = true :=
  ⟨{ inPhase .md5 .load 0#7 with hc := raiseErr .busy (inPhase .md5 .load 0#7).hc }, _, rfl,
    by rintro ⟨a, h, -⟩; exact absurd h (by decide), rfl⟩
/-- For OnlyInitSelectsAndClears, RunningStateChangesOnlyByInitOrAccum and RegistersAreStableOnceNotBusy. -/
theorem witness_WholeMachineRules :
    (∃ s t a, step s = .next t ∧ InitTurn s a) ∧ (∃ s t, step s = .next t ∧ t.hc.h ≠ s.hc.h) ∧
      (∃ s t, step s = .next t ∧ DataCommandTurn s) ∧ ∃ s t, s.hc.busy = false ∧ step s = .next t :=
  ⟨⟨withHost (idle .md5) [.access (.write 0x000 4 0x01000001#32)], _, .sha256, rfl, rfl, _, [], rfl, rfl⟩,
    ⟨withHost (idle .md5) [.access (.write 0x000 4 0x01000001#32)], _, rfl, by decide⟩,
    ⟨withHost (idle .md5) [.access (.write 0x008 4 7#32)], _, rfl, rfl, _, [], .inr rfl⟩,
    ⟨State.reset, _, rfl, rfl⟩⟩
theorem witness_HashSequence (a : Alg) (msg : List Byte) : ∃ s : State, s.Inv ∧ s.host = hashOps a msg :=
  ⟨withHost (inPhase a .load 0#7) (hashOps a msg), load_inv a, rfl⟩
theorem witness_CoresShareNoState :
    ∃ y y' : System, System.stepAt 1 y = .next y' ∧ y.cores.length = 2 :=
  ⟨⟨[State.reset, inPhase .md5 .seed 0#7]⟩, _, rfl, rfl⟩

end Sys2Proof.Tests
end

section
/-! PROOFS. Rules of the shared operations: BUSY, the error primitive, the taking of bytes, the counting of RND. -/

namespace Sys2Proof.Machine

/-- R37: BUSY is on in the five working phases. -/
theorem busy_iff {c : HashCore} : c.busy = true ↔
    c.phase = .load ∨ c.phase = .expand ∨ c.phase = .seed ∨ c.phase = .round ∨ c.phase = .accum := by
  unfold HashCore.busy
  cases c.phase <;> simp [Phase.busy]

/-- The error primitive keeps a recorded code (R212). -/
theorem raiseErr_of_err {c : HashCore} (e : ErrCode) (h : c.err = true) : raiseErr e c = c := by
  simp [raiseErr, h]

/-- Message bytes complete the block and start the engine, or FILL counts them (R29). -/
theorem takeBytes_cases (xs : List Byte) (c : HashCore) :
    c.fill.toNat + xs.length = 64 ∧ (takeBytes xs c).phase = .load ∧ (takeBytes xs c).fill = 0#6 ∨
      c.fill.toNat + xs.length ≠ 64 ∧ (takeBytes xs c).phase = c.phase ∧
        (takeBytes xs c).fill = c.fill + BitVec.ofNat 6 xs.length := by
  by_cases h : c.fill.toNat + xs.length = 64 <;> simp [takeBytes, countBytes_phase, countBytes_fill, h]

/-- A round or an expansion counts RND up, and moves PHASE on after the one of RND = 63 (R36). -/
theorem phase_rnd_of_count {c : HashCore} (c' : HashCore) (q : Phase) (hu : c.rnd.toNat ≤ 63)
    (hr : c'.rnd = c.rnd + 1#7) (hph : c'.phase = if c.rnd.toNat = 63 then q else c.phase) :
    c.rnd.toNat < 63 ∧ c'.phase = c.phase ∧ c'.rnd.toNat = c.rnd.toNat + 1 ∨
      c.rnd.toNat = 63 ∧ c'.phase = q ∧ c'.rnd.toNat = 64 := by
  rw [hr, hph, rnd_succ hu]
  by_cases h : c.rnd.toNat = 63
  · exact .inr (by simp [h])
  · exact .inl ⟨by omega, by simp [h], rfl⟩

end Sys2Proof.Machine
end

section
/-! PROOFS. The frame of the micro-steps (10_state.md R21 to R33): which registers each of them leaves as they are. -/

namespace Sys2Proof.Machine

variable {c c' : HashCore}

theorem MicroEffect.control_kept (h : MicroEffect c c') :
    c'.alg = c.alg ∧ c'.initd = c.initd ∧ c'.fill = c.fill ∧ c'.len = c.len ∧ c'.err = c.err ∧
      c'.errcode = c.errcode := by
  cases h with
  | accum => simp [accumStep]
  | _ => exact ⟨rfl, rfl, rfl, rfl, rfl, rfl⟩

theorem MicroEffect.running_kept (h : MicroEffect c c') (hp : c.phase ≠ .accum) :
    c'.h = c.h ∧ c'.blkcnt = c.blkcnt ∧ c'.pstate = c.pstate ∧ c'.buf = c.buf := by
  cases h with
  | accum hp' => exact absurd hp' hp
  | _ => exact ⟨rfl, rfl, rfl, rfl⟩

theorem MicroEffect.buf_kept (h : MicroEffect c c') (hq : c.pstate ≠ .tail2) : c'.buf = c.buf := by
  cases h with
  | accum => simp [accumStep, afterBlock_buf, hq]
  | _ => rfl

theorem MicroEffect.v_kept (h : MicroEffect c c') (hs : c.phase ≠ .seed) (hr : c.phase ≠ .round) : c'.v = c.v := by
  cases h with
  | seed hp => exact absurd hp hs
  | roundMd5 hp => exact absurd hp hr
  | roundSha256 hp => exact absurd hp hr
  | accum => simp [accumStep]
  | _ => rfl

theorem MicroEffect.m_kept (h : MicroEffect c c') (hl : c.phase ≠ .load) : c'.m = c.m := by
  cases h with
  | loadMd5 hp => exact absurd hp hl
  | loadSha256 hp => exact absurd hp hl
  | accum => simp [accumStep]
  | _ => rfl

theorem MicroEffect.w_kept (h : MicroEffect c c') (hw : c.alg = .md5 ∨ c.phase ≠ .load ∧ c.phase ≠ .expand) :
    c'.w = c.w := by
  cases h with
  | loadSha256 hp ha => simp [hp, ha] at hw
  | expand hp ha => simp [hp, ha] at hw
  | accum => simp [accumStep]
  | _ => rfl

/-- MD5 does not touch the elements 4 to 7 of H and V (R154, R192, R193). -/
theorem MicroEffect.md5_upper_kept (h : MicroEffect c c') (ha : c.alg = .md5) {k : Nat} (h4 : 4 ≤ k) (h8 : k < 8) :
    rd c'.h k = rd c.h k ∧ rd c'.v k = rd c.v k := by
  have hk : ¬ k < regCount c.alg := by simpa [ha, regCount] using h4
  cases h with
  | seed => exact ⟨rfl, by simp [seedStep, h8, hk]⟩
  | roundMd5 =>
    refine ⟨rfl, (Md5Regs.rd_put _ c.v k).trans ?_⟩
    rw [if_neg (by omega), if_neg (by omega), if_neg (by omega), if_neg (by omega)]
  | accum => simp [accumStep, addRegs, h8, hk]
  | roundSha256 _ ha' => cases ha.symm.trans ha'
  | _ => exact ⟨rfl, rfl⟩

/-- The engine moves only while BUSY (R97). -/
theorem MicroEffect.busy (h : MicroEffect c c') : c.busy = true := by
  cases h <;> simp [busy_iff, *]

/-- Only a block of message bytes leads back to ABSORB without ending the message (R194). -/
theorem MicroEffect.pstate_absorb_before (h : MicroEffect c c') (hq : c'.pstate = .absorb) (hd : c'.phase ≠ .done) :
    c.pstate = .absorb := by
  cases h with
  | accum => cases hc : c.pstate <;> simp_all [accumStep, afterBlock_phase, afterBlock_pstate]
  | _ => exact hq

/-- Settles O27: one frame lemma per group of registers. -/
theorem microStepsWriteOnlyTheirRegisters : Obligations.MicroStepsWriteOnlyTheirRegisters := by
  unfold Obligations.MicroStepsWriteOnlyTheirRegisters
  intro c c' h
  have he := microStep_effect h
  exact ⟨he.control_kept, he.running_kept, fun _ hq => he.buf_kept hq, he.v_kept, he.m_kept, he.w_kept⟩

end Sys2Proof.Machine
end

section
/-! PROOFS. What one step does to HASHCORE, by whose turn it is, and the whole-machine rules read from it. -/

namespace Sys2Proof.Machine

variable {s t : State} {a : Alg}

/-- An INIT turn is a write of an INIT word to CMD at the head of the host's list. -/
theorem InitTurn.head (h : InitTurn s a) {op : HostOp} {rest : List HostOp} (hh : s.host = op :: rest) :
    ∃ x, op = .access (.write 0x000 4 x) ∧ decode .cmd x = .ok (.init a) := by
  obtain ⟨-, x, rest', hx, hd⟩ := h
  rw [hh] at hx
  cases hx
  exact ⟨x, rfl, hd⟩

theorem not_initTurn_of_agent (ha : nextAgent s ≠ some .host) : ¬∃ a, InitTurn s a :=
  fun ⟨_, h, _⟩ => ha h

theorem not_initTurn_of_op {op : HostOp} {rest : List HostOp} (hh : s.host = op :: rest)
    (hop : ∀ x a, op = .access (.write 0x000 4 x) → decode .cmd x ≠ .ok (.init a)) : ¬∃ a, InitTurn s a := by
  rintro ⟨a, h⟩
  obtain ⟨x, hx, hd⟩ := h.head hh
  exact hop x a hx hd

/-- The command of an INIT turn is the INIT, and no other. -/
theorem InitTurn.unique {b : Alg} (h : InitTurn s a) (h' : InitTurn s b) : a = b := by
  obtain ⟨-, x, rest, hh, hd⟩ := h
  obtain ⟨y, hy, hd'⟩ := h'.head hh
  cases hy
  rw [hd] at hd'
  cases hd'
  rfl

theorem DataCommandTurn.not_initTurn (h : DataCommandTurn s) : ¬∃ a, InitTurn s a := by
  obtain ⟨-, x, rest, ⟨hh, hd⟩ | hh⟩ := h
  · refine not_initTurn_of_op hh fun y a hy he => ?_
    cases hy
    rcases hd with ⟨b, hd⟩ | hd <;> simp [he] at hd
  · exact not_initTurn_of_op hh fun y a hy => by simp at hy

/-- No word of the CMD port is a DATA command (R70). -/
theorem decode_cmd_ne_data (x w : Word) : decode .cmd x ≠ .ok (.data w) := by
  show decodeCmd x ≠ _
  unfold decodeCmd
  repeat' split
  all_goals simp

/-- What a step does to HASHCORE, with whose turn it is. -/
inductive CoreEffect (s : State) : HashCore → Prop where
  /-- Nothing moves, the host reads or polls, its write is ignored, or it writes NOP. -/
  | kept (hn : ¬∃ a, InitTurn s a) : CoreEffect s s.hc
  | engine (c : HashCore) (ha : nextAgent s = some .engine) (hm : MicroEffect s.hc c) : CoreEffect s c
  | init (a : Alg) (ht : InitTurn s a) : CoreEffect s (initCore a)
  /-- An accepted ABSORB or DATA: one byte, or four at an aligned FILL. -/
  | bytes (xs : List Byte) (ht : DataCommandTurn s) (hi : s.hc.initd = true) (hp : s.hc.phase = .idle)
      (hl : xs.length = 1 ∨ xs.length = 4 ∧ s.hc.fill.toNat % 4 = 0) : CoreEffect s (takeBytes xs s.hc)
  | final (ht : DataCommandTurn s) (hi : s.hc.initd = true) (hp : s.hc.phase = .idle) :
      CoreEffect s (finalCore s.hc)
  /-- A rejected data command or an ILLEGAL word. -/
  | error (e : ErrCode) (hn : ¬∃ a, InitTurn s a) (he : e ≠ .noError) : CoreEffect s (raiseErr e s.hc)

/-- The host's command at its turn, as an effect on HASHCORE. -/
theorem coreEffect_of_command {acc : Access} {rest : List HostOp} {i : Instr} {p : Port} {x : Word} {c : HashCore}
    (ha : nextAgent s = some .host) (hh : s.host = .access acc :: rest) (hd : decode p x = .ok i)
    (hp : acc = .write 0 4 x ∧ p = .cmd ∨ acc = .write 8 4 x ∧ p = .data) (he : CommandEffect i s.hc c) :
    CoreEffect s c := by
  have hn : (∀ a, i ≠ .init a) → ¬∃ a, InitTurn s a := fun hi =>
    not_initTurn_of_op hh fun y a hy hdy => by
      rcases hp with ⟨rfl, rfl⟩ | ⟨rfl, rfl⟩
      · cases hy
        rw [hd] at hdy
        cases hdy
        exact hi a rfl
      · simp at hy
  rcases hp with ⟨rfl, rfl⟩ | ⟨rfl, rfl⟩
  · cases he with
    | nop => exact .kept (hn (by simp))
    | init a => exact .init a ⟨ha, x, rest, hh, hd⟩
    | absorb b _ hi hp => exact .bytes [b] ⟨ha, x, rest, .inl ⟨hh, .inl ⟨b, hd⟩⟩⟩ hi hp (.inl rfl)
    | data w => exact absurd hd (decode_cmd_ne_data x w)
    | final _ hi hp => exact .final ⟨ha, x, rest, .inl ⟨hh, .inr hd⟩⟩ hi hp
    | rejected _ e _ he _ hi => exact .error e (hn hi) he
  · cases hd
    cases he with
    | data _ _ hi hp hf => exact .bytes (dataBytes x) ⟨ha, x, rest, .inr hh⟩ hi hp (.inr ⟨rfl, hf⟩)
    | rejected _ e _ he _ hi => exact .error e (hn hi) he

/-- Everything one step can do to HASHCORE. -/
theorem step_coreEffect (h : step s = .next t) : CoreEffect s t.hc := by
  cases step_effect h with
  | rest ha => exact .kept (not_initTurn_of_agent (by simp [ha]))
  | engine c ha hm => exact .engine c ha hm
  | command _ _ _ _ _ _ ha hh hd hp he => exact coreEffect_of_command ha hh hd hp he
  | illegal _ x e _ hh hd =>
    refine .error .illegal (not_initTurn_of_op hh fun y a hy => ?_) (by simp)
    cases hy
    simp [hd]
  | ignored _ _ _ _ hh h0 => exact .kept (not_initTurn_of_op hh fun y a hy => by simp [h0] at hy)
  | read _ _ _ hh => exact .kept (not_initTurn_of_op hh fun y a hy => by simp at hy)
  | poll _ _ hh => exact .kept (not_initTurn_of_op hh fun y a hy => by simp at hy)
  | waited _ _ hh => exact .kept (not_initTurn_of_op hh fun y a hy => by simp at hy)

/-- Settles O53, by what a step does to HASHCORE. -/
theorem onlyInitSelectsAndClears : Obligations.OnlyInitSelectsAndClears := by
  unfold Obligations.OnlyInitSelectsAndClears
  intro s t h
  have he := step_coreEffect h
  generalize t.hc = c at *
  cases he with
  | kept hn => exact ⟨fun a ha => absurd ⟨a, ha⟩ hn, fun _ => ⟨rfl, rfl, fun he => ⟨he, rfl⟩⟩⟩
  | engine c ha hm =>
    obtain ⟨halg, hinitd, -, -, herr, hcode⟩ := hm.control_kept
    have hn := not_initTurn_of_agent (s := s) (by simp [ha])
    exact ⟨fun a hi => absurd ⟨a, hi⟩ hn, fun _ => ⟨halg, hinitd, by simp [herr, hcode]⟩⟩
  | init a ht => exact ⟨fun b hb => by rw [ht.unique hb], fun hn => absurd ⟨a, ht⟩ hn⟩
  | bytes xs ht => exact ⟨fun a ha => absurd ⟨a, ha⟩ ht.not_initTurn, fun _ => by simp [takeBytes]⟩
  | final ht => exact ⟨fun a ha => absurd ⟨a, ha⟩ ht.not_initTurn, fun _ => by simp [finalCore]⟩
  | error e hn =>
    exact ⟨fun a ha => absurd ⟨a, ha⟩ hn, fun _ => ⟨raiseErr_alg .., raiseErr_initd ..,
      fun he => by simp [raiseErr_of_err e he, he]⟩⟩

/-- Settles O54, by what a step does to HASHCORE. -/
theorem runningStateChangesOnlyByInitOrAccum : Obligations.RunningStateChangesOnlyByInitOrAccum := by
  unfold Obligations.RunningStateChangesOnlyByInitOrAccum
  intro s t h hh
  have he := step_coreEffect h
  generalize t.hc = c at *
  cases he with
  | init a ht => exact .inl ⟨a, ht⟩
  | engine c ha hm => exact .inr ⟨ha, by_contra fun hp => hh (hm.running_kept hp).1⟩
  | kept => exact absurd rfl hh
  | bytes => simp [takeBytes] at hh
  | final => simp [finalCore] at hh
  | error => simp at hh

/-- Settles O52, by what a step does to HASHCORE. -/
theorem phaseAndRoundMoveOnlyByTheTable : Obligations.PhaseAndRoundMoveOnlyByTheTable := by
  unfold Obligations.PhaseAndRoundMoveOnlyByTheTable
  intro s t h
  dsimp only
  have he := step_coreEffect h
  generalize t.hc = c at *
  cases he with
  | kept => exact .inl ⟨rfl, rfl⟩
  | init a ht => exact .inr (.inl ⟨⟨a, ht⟩, rfl, rfl⟩)
  | bytes xs ht hi hp =>
    have hr : (takeBytes xs s.hc).rnd = s.hc.rnd := by simp [takeBytes]
    rcases takeBytes_cases xs s.hc with ⟨-, hp', -⟩ | ⟨-, hp', -⟩
    · exact .inr (.inr (.inl ⟨ht, hp, hp', by rw [hr]⟩))
    · exact .inl ⟨hp', by rw [hr]⟩
  | final ht hi hp => exact .inr (.inr (.inl ⟨ht, hp, rfl, by simp [finalCore]⟩))
  | error => exact .inl (by simp)
  | engine c ha hm =>
    refine .inr (.inr (.inr ⟨ha, ?_⟩))
    cases hm with
    | loadMd5 hp halg => simp [hp, halg, loadMd5]
    | loadSha256 hp halg => simp [hp, halg, loadSha256]
    | expand hp halg hl hu =>
      rcases phase_rnd_of_count (expandStep s.hc) .seed hu rfl rfl
        with ⟨hr, hp', hr'⟩ | ⟨hr, hp', hr'⟩ <;> simp [hp, hr, hp', hr']
    | seed hp => simp [hp, seedStep]
    | roundMd5 hp halg hu =>
      rcases phase_rnd_of_count (roundMd5 s.hc) .accum hu rfl rfl
        with ⟨hr, hp', hr'⟩ | ⟨hr, hp', hr'⟩ <;> simp [hp, hr, hp', hr']
    | roundSha256 hp halg hu =>
      rcases phase_rnd_of_count (roundSha256 s.hc) .accum hu rfl rfl
        with ⟨hr, hp', hr'⟩ | ⟨hr, hp', hr'⟩ <;> simp [hp, hr, hp', hr']
    | accum hp =>
      cases hq : s.hc.pstate <;> simp [hp, accumStep, afterBlock_phase, hq]

end Sys2Proof.Machine
end

section
/-! PROOFS. The invariants of R44: what they ask of each phase, and that every effect on HASHCORE keeps them. -/

namespace Sys2Proof.Machine

variable {c c' : HashCore}

/-- What R44 and R214 ask of FILL, RND, ALG and PSTATE in a phase. -/
def HashCore.OkIn (c : HashCore) : Phase → Prop
  | .idle => c.pstate = .absorb
  | .load => c.fill = 0#6
  | .expand => c.fill = 0#6 ∧ c.alg = .sha256 ∧ 16 ≤ c.rnd.toNat ∧ c.rnd.toNat ≤ 63
  | .seed => c.fill = 0#6
  | .round => c.fill = 0#6 ∧ c.rnd.toNat ≤ 63
  | .accum => c.fill = 0#6
  | .done => c.fill = 0#6 ∧ c.pstate = .absorb

/-- R25: the registers MD5 does not use. -/
def HashCore.Md5UpperZero (c : HashCore) : Prop :=
  c.alg = .md5 → ∀ k, 4 ≤ k → k < 8 → rd c.h k = 0#32 ∧ rd c.v k = 0#32

/-- No phase has the reserved code (I6). -/
theorem Phase.code_ne_reserved (p : Phase) : p.code ≠ 7#3 := by cases p <;> decide

/-- No value of PSTATE has the reserved code (I5). -/
theorem PState.code_ne_reserved (q : PState) : q.code ≠ 3#2 := by cases q <;> decide

theorem ErrCode.code_eq_zero {e : ErrCode} : e.code = 0#3 ↔ e = .noError := by cases e <;> decide

/-- After INIT the invariants are the conditions of the phase, the bound of RND, the error record, and R25. -/
theorem HashCore.Inv.of_initd (hi : c.initd = true) (hr : c.rnd.toNat ≤ 64) (hp : c.OkIn c.phase)
    (he : c.err = false ↔ c.errcode.code = 0#3) (hm : c.Md5UpperZero) : c.Inv where
  fill_le := Nat.le_of_lt_succ c.fill.isLt
  rnd_le := hr
  phase_ne := c.phase.code_ne_reserved
  pstate_ne := c.pstate.code_ne_reserved
  expand_sha256 h := by rw [h] at hp; exact hp.2
  round_le h := by rw [h] at hp; exact hp.2
  rest_absorb h := by
    rcases h with h | h <;> rw [h] at hp
    · exact hp
    · exact hp.2
  done_fill h := by rw [h] at hp; exact hp.1
  err_iff := he
  noinit_idle h := by simp [hi] at h
  busy_fill h := by cases hph : c.phase <;> simp_all [HashCore.OkIn, busy_iff]
  noinit_fill h := by simp [hi] at h
  md5_regs := hm

theorem HashCore.Inv.initd_of_phase (h : c.Inv) (hp : c.phase ≠ .idle) : c.initd = true := by
  by_contra hi
  exact hp (h.noinit_idle (by simpa using hi)).1

/-- A change of HASHCORE that keeps ALG, INITD and the error record, after INIT. -/
theorem HashCore.Inv.of_control_kept (h : c.Inv) (hi : c.initd = true)
    (hk : c'.alg = c.alg ∧ c'.initd = c.initd ∧ c'.err = c.err ∧ c'.errcode = c.errcode)
    (hr : c'.rnd.toNat ≤ 64) (hp : c'.OkIn c'.phase) (hm : c'.Md5UpperZero) : c'.Inv := by
  obtain ⟨-, hinitd, herr, hcode⟩ := hk
  exact .of_initd (hinitd.trans hi) hr hp (by rw [herr, hcode]; exact h.err_iff) hm

theorem inv_raiseErr (h : c.Inv) {e : ErrCode} (he : e ≠ .noError) : (raiseErr e c).Inv := by
  cases hc : c.err with
  | true => rwa [raiseErr_of_err e hc]
  | false =>
    have hr : raiseErr e c = { c with err := true, errcode := e } := by simp [raiseErr, hc]
    rw [hr]
    exact { h with err_iff := by simp [ErrCode.code_eq_zero, he] }

theorem inv_initCore (a : Alg) : (initCore a).Inv := by
  refine .of_initd rfl (Nat.zero_le _) rfl (by simp [initCore, ErrCode.code_eq_zero]) ?_
  rintro ha k h4 h8
  obtain rfl : a = .md5 := ha
  exact ⟨by interval_cases k <;> rfl, rd_replicate k⟩

theorem inv_takeBytes (h : c.Inv) (hi : c.initd = true) (hp : c.phase = .idle) (xs : List Byte) :
    (takeBytes xs c).Inv := by
  refine h.of_control_kept hi (by simp [takeBytes]) (by simpa [takeBytes] using h.rnd_le) ?_
    (by simpa [takeBytes, HashCore.Md5UpperZero] using h.md5_regs)
  rcases takeBytes_cases xs c with ⟨-, hp', hf'⟩ | ⟨-, hp', -⟩
  · rw [hp']
    exact hf'
  · rw [hp', hp]
    simpa [HashCore.OkIn, takeBytes] using h.rest_absorb (.inl hp)

theorem inv_finalCore (h : c.Inv) (hi : c.initd = true) : (finalCore c).Inv :=
  h.of_control_kept hi (by simp [finalCore]) (by simpa [finalCore] using h.rnd_le) rfl
    (by simpa [finalCore, HashCore.Md5UpperZero] using h.md5_regs)

theorem MicroEffect.rnd_le (h : MicroEffect c c') (hr : c.rnd.toNat ≤ 64) : c'.rnd.toNat ≤ 64 := by
  cases h with
  | loadMd5 => exact hr
  | loadSha256 => exact (by decide : 16 ≤ 64)
  | seed => exact Nat.zero_le _
  | accum => simpa [accumStep] using hr
  | expand _ _ _ hu => exact (rnd_succ hu).le.trans (by omega)
  | roundMd5 _ _ hu => exact (rnd_succ hu).le.trans (by omega)
  | roundSha256 _ _ hu => exact (rnd_succ hu).le.trans (by omega)

theorem okIn_nextRound (hp : c.phase = .round) (hu : c.rnd.toNat ≤ 63) (hf : c.fill = 0#6) :
    (nextRound c).OkIn (nextRound c).phase := by
  rcases phase_rnd_of_count (nextRound c) .accum hu rfl rfl with ⟨hr, hp', hr'⟩ | ⟨-, hp', -⟩
  · rw [hp', hp]
    exact ⟨hf, by omega⟩
  · rw [hp']
    exact hf

theorem okIn_expandStep (hp : c.phase = .expand) (ha : c.alg = .sha256) (hl : 16 ≤ c.rnd.toNat)
    (hu : c.rnd.toNat ≤ 63) (hf : c.fill = 0#6) : (expandStep c).OkIn (expandStep c).phase := by
  rcases phase_rnd_of_count (expandStep c) .seed hu rfl rfl with ⟨hr, hp', hr'⟩ | ⟨-, hp', -⟩
  · rw [hp', hp]
    exact ⟨hf, ha, by omega, by omega⟩
  · rw [hp']
    exact hf

theorem okIn_accumStep (hf : c.fill = 0#6) : (accumStep c).OkIn (accumStep c).phase := by
  cases hq : c.pstate <;> simp [accumStep, afterBlock_phase, HashCore.OkIn, afterBlock_pstate, hq, hf]

/-- Each micro-step leads to a phase whose conditions hold. -/
theorem MicroEffect.okIn (h : MicroEffect c c') (hf : c.fill = 0#6) : c'.OkIn c'.phase := by
  cases h with
  | loadMd5 => exact hf
  | loadSha256 _ ha => exact ⟨hf, ha, Nat.le_refl 16, (by decide : 16 ≤ 63)⟩
  | expand hp ha hl hu => exact okIn_expandStep hp ha hl hu hf
  | seed => exact ⟨hf, Nat.zero_le 63⟩
  | roundMd5 hp _ hu => exact okIn_nextRound hp hu hf
  | roundSha256 hp _ hu => exact okIn_nextRound hp hu hf
  | accum => exact okIn_accumStep hf

theorem MicroEffect.md5UpperZero (h : MicroEffect c c') (hm : c.Md5UpperZero) : c'.Md5UpperZero := by
  intro ha k h4 h8
  rw [h.control_kept.1] at ha
  obtain ⟨hh, hv⟩ := h.md5_upper_kept ha h4 h8
  rw [hh, hv]
  exact hm ha k h4 h8

theorem inv_microEffect (h : c.Inv) (hm : MicroEffect c c') : c'.Inv := by
  obtain ⟨halg, hinitd, -, -, herr, hcode⟩ := hm.control_kept
  have hi : c.initd = true := h.initd_of_phase fun hp => by simpa [busy_iff, hp] using hm.busy
  exact h.of_control_kept hi ⟨halg, hinitd, herr, hcode⟩ (hm.rnd_le h.rnd_le) (hm.okIn (h.busy_fill hm.busy))
    (hm.md5UpperZero h.md5_regs)

/-- Settles O49: each effect a step can have on HASHCORE keeps the invariants. -/
theorem stepKeepsTheInvariants : Obligations.StepKeepsTheInvariants := by
  unfold Obligations.StepKeepsTheInvariants
  intro s t hs h
  have he := step_coreEffect h
  show t.hc.Inv
  have hs : s.hc.Inv := hs
  generalize t.hc = c at *
  cases he with
  | kept => exact hs
  | engine _ _ hm => exact inv_microEffect hs hm
  | init a => exact inv_initCore a
  | bytes xs _ hi hp => exact inv_takeBytes hs hi hp xs
  | final _ hi => exact inv_finalCore hs hi
  | error e _ he => exact inv_raiseErr hs he

/-- Settles O48, one invariant at a time: each is about closed values but the one on H and V, which are arrays of zeros. -/
theorem resetMeetsTheInvariants : Obligations.ResetMeetsTheInvariants := by
  unfold Obligations.ResetMeetsTheInvariants
  refine ⟨?_, fun _ => rfl, fun h => absurd h (by decide)⟩
  constructor
  case md5_regs => exact fun _ k _ _ => ⟨rd_replicate k, rd_replicate k⟩
  all_goals decide

end Sys2Proof.Machine
end

section
/-! PROOFS. The registers at reset, the fields of STATUS, and SCHEDW. -/

namespace Sys2Proof.Machine

/-- Settles O47: an array of zeros reads 0 at every index, and the other registers are the table's. -/
theorem resetLeavesTheTabledValues : Obligations.ResetLeavesTheTabledValues := by
  unfold Obligations.ResetLeavesTheTabledValues
  exact ⟨rfl, rfl, fun k => rd_replicate k, fun k => rd_replicate k, fun k => rd_replicate k, fun t => rd_replicate t,
    fun i => rd_replicate i, rfl, rfl, rfl, rfl, rfl, rfl, rfl, rfl, rfl, rfl⟩

theorem flagBit_getLsbD_zero (b : Bool) : (flagBit b).getLsbD 0 = b := by cases b <;> rfl

/-- R38: the one-bit fields of STATUS. -/
theorem status_flags (c : HashCore) :
    c.status.getLsbD 0 = c.busy ∧ c.status.getLsbD 1 = c.isDone ∧ c.status.getLsbD 2 = c.err ∧
      c.status.getLsbD 3 = c.initd ∧ c.status.getLsbD 4 = c.alg.bit.getLsbD 0 := by
  simp [HashCore.status, BitVec.getLsbD_append, flagBit_getLsbD_zero, -Nat.reduceAdd, -BitVec.getLsbD_eq_getElem]

/-- R38: the wider fields of STATUS. -/
theorem status_fields (c : HashCore) :
    c.status.extractLsb' 5 3 = c.errcode.code ∧ c.status.extractLsb' 8 6 = c.fill ∧
      c.status.extractLsb' 16 7 = c.rnd ∧ c.status.extractLsb' 24 3 = c.phase.code ∧
      c.status.extractLsb' 27 2 = c.pstate.code := by
  simp [HashCore.status, BitVec.extractLsb'_setWidth_of_le, BitVec.extractLsb'_append_eq_of_le,
    BitVec.extractLsb'_append_eq_of_add_le, -Nat.reduceAdd]

/-- R38: the reserved bits of STATUS. -/
theorem status_reserved (c : HashCore) :
    c.status.extractLsb' 14 2 = 0#2 ∧ c.status.extractLsb' 23 1 = 0#1 ∧ c.status.extractLsb' 29 3 = 0#3 := by
  rw [← and_assoc]
  constructor
  · simp [HashCore.status, BitVec.extractLsb'_setWidth_of_le, BitVec.extractLsb'_append_eq_of_le,
      BitVec.extractLsb'_append_eq_of_add_le, -Nat.reduceAdd]
  · unfold HashCore.status
    ext i hi
    simp

/-- Settles O34, from the flags, the fields and the reserved bits of STATUS. -/
theorem statusHoldsItsFields : Obligations.StatusHoldsItsFields := by
  unfold Obligations.StatusHoldsItsFields
  refine ⟨rfl, fun _ _ => rfl, fun c => ?_⟩
  obtain ⟨hbusy, hdone, herr, hinitd, halg⟩ := status_flags c
  obtain ⟨hcode, hfill, hrnd, hphase, hpstate⟩ := status_fields c
  obtain ⟨h14, h23, h29⟩ := status_reserved c
  refine ⟨rfl, ?_, ?_, herr, hinitd, ?_, ?_, hfill, h14, hrnd, h23, ?_, ?_, h29⟩
  · rw [hbusy, busy_iff]
  · rw [hdone, HashCore.isDone, decide_eq_true_iff]
  · rw [halg]
    cases c.alg <;> decide
  · rw [hcode]
    cases c.errcode <;> rfl
  · rw [hphase]
    cases c.phase <;> rfl
  · rw [hpstate]
    cases c.pstate <;> rfl

/-- R131: the message index of MD5, with the quartiles as bounds on the round. -/
theorem md5Index_eq {j : Nat} : md5Index j =
    if j < 16 then j else if j < 32 then (5 * j + 1) % 16 else if j < 48 then (3 * j + 5) % 16 else 7 * j % 16 := by
  unfold md5Index
  match hq : j / 16 with
  | 0 =>
    show j = _
    rw [if_pos (by omega)]
  | 1 =>
    show (5 * j + 1) % 16 = _
    rw [if_neg (by omega), if_pos (by omega)]
  | 2 =>
    show (3 * j + 5) % 16 = _
    rw [if_neg (by omega), if_neg (by omega), if_pos (by omega)]
  | _ + 3 =>
    show 7 * j % 16 = _
    rw [if_neg (by omega), if_neg (by omega), if_neg (by omega)]

/-- Settles O35, phase by phase. -/
theorem schedwIsTheWordOfThePendingRound : Obligations.SchedwIsTheWordOfThePendingRound := by
  unfold Obligations.SchedwIsTheWordOfThePendingRound
  refine fun c => ⟨fun hp ha _ => ?_, fun hp ha => ?_, fun hp => ?_⟩
  · rw [← md5Index_eq]
    simp [HashCore.schedw, hp, ha]
  · simp [HashCore.schedw, hp, ha]
  · cases h : c.phase with
    | round => exact absurd h hp
    | _ => simp [HashCore.schedw, h]

end Sys2Proof.Machine
end

section
/-! PROOFS. The agreement of LEN and FILL (R29, R30), which every effect on HASHCORE keeps. -/

namespace Sys2Proof.Machine

variable {c c' : HashCore}

/-- Adding n to LEN modulo 2^64 adds n modulo the block length (R30). -/
theorem len_add_mod (len : BitVec 64) (n : Nat) : (len + BitVec.ofNat 64 n).toNat % 64 = (len.toNat + n) % 64 := by
  simp only [BitVec.toNat_add, BitVec.toNat_ofNat]
  omega

theorem counts_takeBytes (h : c.Counts) (hp : c.phase = .idle) (xs : List Byte)
    (hl : xs.length = 1 ∨ xs.length = 4 ∧ c.fill.toNat % 4 = 0) : (takeBytes xs c).Counts := by
  have hf := h.1 hp
  have hlen : (takeBytes xs c).len.toNat % 64 = (c.len.toNat + xs.length) % 64 := by
    rw [← len_add_mod]
    simp [takeBytes]
  have hle : c.fill.toNat + xs.length ≤ 64 := by
    have := c.fill.isLt
    rcases hl with hl | ⟨hl, h4⟩ <;> omega
  rcases takeBytes_cases xs c with ⟨hw, hp', -⟩ | ⟨hw, hp', hf'⟩
  · refine ⟨fun h' => by simp [hp'] at h', fun _ _ => ?_⟩
    omega
  · refine ⟨fun _ => ?_, fun hb => by simp [busy_iff, hp', hp] at hb⟩
    rw [hf', hlen, BitVec.toNat_add, BitVec.toNat_ofNat]
    omega

theorem counts_finalCore : (finalCore c).Counts := by
  refine ⟨fun hp => by simp [finalCore] at hp, fun _ hq => ?_⟩
  simp only [finalCore, padTail_pstate] at hq
  split at hq <;> cases hq

theorem counts_microEffect (hi : c.Inv) (h : c.Counts) (hm : MicroEffect c c') : c'.Counts := by
  obtain ⟨-, -, hfill, hlen, -, -⟩ := hm.control_kept
  have hl : c.pstate = .absorb → c'.len.toNat % 64 = 0 := hlen ▸ h.2 hm.busy
  refine ⟨fun hp => ?_, fun hb hq => ?_⟩
  · have hq := (inv_microEffect hi hm).rest_absorb (.inl hp)
    rw [hl (hm.pstate_absorb_before hq (by simp [hp])), hfill, hi.busy_fill hm.busy]
    rfl
  · exact hl (hm.pstate_absorb_before hq fun hd => by simp [busy_iff, hd] at hb)

/-- Settles O50: each effect a step can have on HASHCORE keeps the count. -/
theorem stepKeepsFillEqualToLengthModuloBlock : Obligations.StepKeepsFillEqualToLengthModuloBlock := by
  unfold Obligations.StepKeepsFillEqualToLengthModuloBlock
  intro s t hs hc h
  have he := step_coreEffect h
  generalize t.hc = c at *
  cases he with
  | kept => exact hc
  | engine _ _ hm => exact counts_microEffect hs hc hm
  | init a => exact ⟨fun _ => rfl, fun hb => by simp [busy_iff, initCore] at hb⟩
  | bytes xs _ hi hp hl => exact counts_takeBytes hc hp xs hl
  | final => exact counts_finalCore
  | error e => simpa [HashCore.Counts] using hc

end Sys2Proof.Machine
end

section
/-! PROOFS. The register map (20_memory.md R51, R55): what each offset of the window reads as. -/

namespace Sys2Proof.Machine

/-- R51: the register at the offset of a named register is that register. -/
theorem regAt_regOffset (r : Reg) : regAt (regOffset r) = some r := by
  cases r with
  | h k => revert k; decide
  | v k => revert k; decide
  | m k => revert k; decide
  | w t => revert t; decide
  | _ => rfl

theorem windowRead_regOffset (c : HashCore) (r : Reg) : windowRead c (regOffset r) = readReg c r := by
  rw [windowRead, regAt_regOffset]

/-- R55: no register is at the offsets the map reserves between V7 and M0, and between M15 and W0. -/
theorem regAt_reserved {off : Nat} (h : 0x060 ≤ off ∧ off < 0x080 ∨ 0x0C0 ≤ off ∧ off < 0x100) : regAt off = none := by
  unfold regAt
  repeat rw [if_neg (by omega)]

theorem windowRead_reserved (c : HashCore) {off : Nat} (h : regAt off = none) : windowRead c off = 0#32 := by
  rw [windowRead, h]

/-- Settles O36: a named register is read at its own offset, and a reserved offset holds none. -/
theorem windowReadsTheRegisterMap : Obligations.WindowReadsTheRegisterMap := by
  unfold Obligations.WindowReadsTheRegisterMap
  intro c
  have hr := windowRead_regOffset c
  refine ⟨hr .cmd, hr .status, hr .data, windowRead_reserved c rfl, ?_, ?_, hr .blkcnt, hr .schedw,
    fun k hk => hr (.h ⟨k, hk⟩), fun k hk => hr (.v ⟨k, hk⟩), fun k hk => windowRead_reserved c ?_,
    fun k hk => hr (.m ⟨k, hk⟩), fun k hk => windowRead_reserved c ?_, fun t ht => hr (.w ⟨t, ht⟩)⟩
  · exact (hr .lenLo).trans (BitVec.setWidth_eq_extractLsb' (by decide)).symm
  · refine (hr .lenHi).trans ?_
    apply BitVec.eq_of_toNat_eq
    simp [readReg]
  · exact regAt_reserved (by omega)
  · exact regAt_reserved (by omega)

end Sys2Proof.Machine
end

section
/-! PROOFS. The bytes of a DATA word in the order they are absorbed, read back by the two loads (20_memory.md R57). -/

namespace Sys2Proof.Machine

/-- A word is its four bytes, the most significant first (R76). -/
theorem append_bytes (x : Word) :
    (x.extractLsb' 24 8 ++ x.extractLsb' 16 8 ++ x.extractLsb' 8 8 ++ x.extractLsb' 0 8 : BitVec (8 + 8 + 8 + 8)) = x := by
  rw [BitVec.extractLsb'_append_extractLsb'_eq_extractLsb' (by decide : 24 = 16 + 8),
    BitVec.extractLsb'_append_extractLsb'_eq_extractLsb' (by decide : 16 = 8 + 8),
    BitVec.extractLsb'_append_extractLsb'_eq_extractLsb' (by decide : 8 = 0 + 8)]
  exact BitVec.extractLsb'_eq_self

/-- Settles O18: the MD5 load puts the four bytes of a word together in their own order, the SHA-256 load in reverse. -/
theorem dataWordsLoadAsTheyWereWritten : Obligations.DataWordsLoadAsTheyWereWritten := by
  unfold Obligations.DataWordsLoadAsTheyWereWritten
  intro buf x hbuf k hk
  have h0 : rd buf (4 * k) = (x k).extractLsb' 0 8 := hbuf k 0 hk (by decide)
  have h1 : rd buf (4 * k + 1) = (x k).extractLsb' 8 8 := hbuf k 1 hk (by decide)
  have h2 : rd buf (4 * k + 2) = (x k).extractLsb' 16 8 := hbuf k 2 hk (by decide)
  have h3 : rd buf (4 * k + 3) = (x k).extractLsb' 24 8 := hbuf k 3 hk (by decide)
  constructor
  · rw [md5Words, rd_tab_lt _ hk, le32_append, h0, h1, h2, h3]
    exact append_bytes (x k)
  · rw [sha256Words, rd_tab_lt _ hk, be32_append, h0, h1, h2, h3]

end Sys2Proof.Machine
end

section
/-! PROOFS. The host's turn: which accesses the window admits (20_memory.md R52), what each of them answers, and what can stop
a step. -/

namespace Sys2Proof.Machine

variable {s : State} {a : Access} {rest : List HostOp}

theorem admits_iff : admits a = true ↔ a.size = 4 ∧ a.off % 4 = 0 ∧ 0 ≤ a.off ∧ a.off < 0x200 := by
  simp only [admits, Bool.and_eq_true, decide_eq_true_eq, and_assoc]
  rfl

theorem not_admits_iff : ¬admits a = true ↔ a.size ≠ 4 ∨ a.off % 4 ≠ 0 ∨ a.off < 0 ∨ 0x200 ≤ a.off := by
  rw [admits_iff]
  omega

/-- An access of the right size at an aligned offset of the window, the offset given as it is in R51. -/
theorem admits_of_offset {off : Nat} (hsize : a.size = 4) (hoff : a.off = off) (hlt : off < 0x200) (h4 : off % 4 = 0) :
    admits a = true :=
  admits_iff.mpr ⟨hsize, by omega⟩

theorem busAccess_of_not_admits (h : ¬admits a = true) (s : State) : busAccess a s = .fault (.busFault a.off) := by
  simp [busAccess, h]

theorem busAccess_read {off : Int} {n : Nat} (h : admits (.read off n) = true) (s : State) :
    busAccess (.read off n) s = .next (s.logRead (windowRead s.hc off.toNat)) := by
  rw [busAccess, if_pos h]

theorem busAccess_write {off : Int} {n : Nat} {x : Word} (h : admits (.write off n x) = true) (s : State) :
    busAccess (.write off n x) s = windowWrite off.toNat x s := by
  rw [busAccess, if_pos h]

/-- R54, R55: a write elsewhere than at CMD and DATA is ignored. -/
theorem windowWrite_ignored {off : Nat} (h0 : off ≠ 0x000) (h8 : off ≠ 0x008) (x : Word) (s : State) :
    windowWrite off x s = .next s := by
  rcases windowWrite_eq off x s with ⟨hr, -⟩ | ⟨hr, -⟩ | ⟨-, -, hw⟩
  · exact absurd (regAt_cmd hr) h0
  · exact absurd (regAt_data hr) h8
  · exact hw

/-- Every word written to a port answers a next state, decoded or ILLEGAL (R78, R210). -/
theorem portWrite_answers (p : Port) (x : Word) (s : State) : ∃ t, portWrite p x s = .next t := by
  unfold portWrite
  split
  · obtain ⟨c, hc, -⟩ := exec_effect ‹_› s
    exact ⟨_, hc⟩
  · exact ⟨_, rfl⟩

theorem windowWrite_answers (off : Nat) (x : Word) (s : State) : ∃ t, windowWrite off x s = .next t := by
  rcases windowWrite_eq off x s with ⟨-, hw⟩ | ⟨-, hw⟩ | ⟨-, -, hw⟩ <;> rw [hw]
  · exact portWrite_answers .cmd x s
  · exact portWrite_answers .data x s
  · exact ⟨s, rfl⟩

/-- An admitted access answers a next state (R52). -/
theorem busAccess_answers (h : admits a = true) (s : State) : ∃ t, busAccess a s = .next t := by
  cases a with
  | read off n => exact ⟨_, busAccess_read h s⟩
  | write off n x =>
    rw [busAccess_write h]
    exact windowWrite_answers _ x s

theorem step_of_none (ha : nextAgent s = none) : step s = .next s := by
  simp [step, ha]

theorem step_of_host (ha : nextAgent s = some .host) : step s = hostTurn s.useTurn := by
  simp [step, ha]

theorem step_of_engine (ha : nextAgent s = some .engine) : step s = engineTurn s.useTurn := by
  simp [step, ha]

/-- At the host's turn a step is the host's next access (R58). -/
theorem step_access (ha : nextAgent s = some .host) (hh : s.host = .access a :: rest) :
    step s = busAccess a { s.useTurn with host := rest } := by
  rw [step_of_host ha]
  simp [hostTurn, hh]

theorem step_access_answers (ha : nextAgent s = some .host) (hh : s.host = .access a :: rest) (h : admits a = true) :
    ∃ t, step s = .next t := by
  rw [step_access ha hh]
  exact busAccess_answers h _

theorem step_access_faults (ha : nextAgent s = some .host) (hh : s.host = .access a :: rest) (h : ¬admits a = true) :
    step s = .fault (.busFault a.off) := by
  rw [step_access ha hh, busAccess_of_not_admits h]

/-- At its turn a host with nothing to do, or in the loop WAIT, is answered (R80). -/
theorem hostTurn_answers_of_not_access (h : ∀ a rest, s.host ≠ .access a :: rest) : ∃ t, hostTurn s = .next t := by
  unfold hostTurn
  split
  · exact ⟨_, rfl⟩
  · exact absurd ‹_› (h _ _)
  · split <;> exact ⟨_, rfl⟩

theorem busy_of_nextAgent_engine (ha : nextAgent s = some .engine) : s.hc.busy = true := by
  unfold nextAgent at ha
  cases hb : s.hc.busy with
  | true => rfl
  | false => cases he : s.host.isEmpty <;> simp [hb, he] at ha

/-- R97, R44: under the invariants a busy engine has a micro-step. -/
theorem microStep_of_busy {c : HashCore} (hc : c.Inv) (hb : c.busy = true) : ∃ c', microStep c = some c' := by
  rcases busy_iff.mp hb with hp | hp | hp | hp | hp
  · cases ha : c.alg with
    | md5 => exact ⟨_, microStep_loadMd5 hp ha⟩
    | sha256 => exact ⟨_, microStep_loadSha256 hp ha⟩
  · obtain ⟨ha, hl, hu⟩ := hc.expand_sha256 hp
    exact ⟨_, microStep_expand hp ha hl hu⟩
  · exact ⟨_, microStep_seed hp⟩
  · cases ha : c.alg with
    | md5 => exact ⟨_, microStep_roundMd5 hp ha (hc.round_le hp)⟩
    | sha256 => exact ⟨_, microStep_roundSha256 hp ha (hc.round_le hp)⟩
  · exact ⟨_, microStep_accum hp⟩

/-- The engine's turn is answered: it is the engine's only while BUSY, and then there is a micro-step. -/
theorem step_engine_answers (hs : s.Inv) (ha : nextAgent s = some .engine) : ∃ t, step s = .next t := by
  obtain ⟨c, hc⟩ := microStep_of_busy hs (busy_of_nextAgent_engine ha)
  rw [step_of_engine ha]
  exact ⟨s.useTurn.setHc c, by simp [engineTurn, hc]⟩

/-- Settles O37: the step is the read, and an admitted read is answered by the window. -/
theorem admittedReadHasNoSideEffect : Obligations.AdmittedReadHasNoSideEffect := by
  unfold Obligations.AdmittedReadHasNoSideEffect
  intro s off rest hlt h4 ha hh
  rw [step_access ha hh, busAccess_read (admits_of_offset rfl rfl hlt h4)]
  rfl

/-- Settles O38: the step is the write, and the window ignores it. -/
theorem writesElsewhereAreIgnored : Obligations.WritesElsewhereAreIgnored := by
  unfold Obligations.WritesElsewhereAreIgnored
  intro s off x rest hlt h4 h0 h8 ha hh
  rw [step_access ha hh, busAccess_write (admits_of_offset rfl rfl hlt h4)]
  exact windowWrite_ignored h0 h8 x _

/-- Settles O39: the window answers the accesses it admits and faults on the others. -/
theorem exactlyUnadmittedAccessesBusFault : Obligations.ExactlyUnadmittedAccessesBusFault := by
  unfold Obligations.ExactlyUnadmittedAccessesBusFault
  exact fun s a rest ha hh => ⟨fun h => step_access_faults ha hh (not_admits_iff.mpr h),
    fun hsize halign hnonneg hlt => step_access_answers ha hh (admits_iff.mpr ⟨hsize, halign, hnonneg, hlt⟩)⟩

/-- Settles O51, by whose turn it is and, at the host's, by what it does next. -/
theorem onlyABusFaultStopsTheMachine : Obligations.OnlyABusFaultStopsTheMachine := by
  unfold Obligations.OnlyABusFaultStopsTheMachine
  intro s hs
  match ha : nextAgent s with
  | none => exact .inl ⟨s, step_of_none ha⟩
  | some .engine => exact .inl (step_engine_answers hs ha)
  | some .host =>
    by_cases hh : ∃ a rest, s.host = .access a :: rest
    · obtain ⟨a, rest, hh⟩ := hh
      by_cases hadm : admits a = true
      · exact .inl (step_access_answers ha hh hadm)
      · exact .inr ⟨a, rest, hh, rfl, step_access_faults ha hh hadm, not_admits_iff.mp hadm⟩
    · push Not at hh
      rw [step_of_host ha]
      exact .inl (hostTurn_answers_of_not_access hh)

end Sys2Proof.Machine
end

section
/-! PROOFS. Stability of the registers while BUSY = 0 (20_memory.md R60), and the order of the host's accesses (R58, R59). -/

namespace Sys2Proof.Machine

/-- Taking message bytes writes none of the registers the engine works on (R94, R95). -/
theorem takeBytes_engine_registers_kept (xs : List Byte) (c : HashCore) :
    (takeBytes xs c).h = c.h ∧ (takeBytes xs c).v = c.v ∧ (takeBytes xs c).m = c.m ∧ (takeBytes xs c).w = c.w ∧
      (takeBytes xs c).blkcnt = c.blkcnt ∧ (takeBytes xs c).rnd = c.rnd := by
  simp [takeBytes]

/-- Message bytes make a resting engine busy only by completing the block (R29). -/
theorem takeBytes_phase_of_busy {xs : List Byte} {c : HashCore} (hb : c.busy = false)
    (hb' : (takeBytes xs c).busy = true) : (takeBytes xs c).phase = .load := by
  rcases takeBytes_cases xs c with ⟨-, hp, -⟩ | ⟨-, hp, -⟩
  · exact hp
  · rw [HashCore.busy, hp] at hb'
    exact absurd (hb.symm.trans hb') (by decide)

/-- Settles O55, by what a step does to HASHCORE: a resting engine has no micro-step, and the commands but INIT write only the
buffer, its counters, PSTATE, PHASE and the error record. -/
theorem registersAreStableOnceNotBusy : Obligations.RegistersAreStableOnceNotBusy := by
  unfold Obligations.RegistersAreStableOnceNotBusy
  intro s t hb h
  have he := step_coreEffect h
  generalize t.hc = c at *
  cases he with
  | init a ht => exact .inl ⟨a, ht⟩
  | engine _ _ hm => exact absurd (hb.symm.trans hm.busy) (by decide)
  | kept => exact .inr (by simp [hb])
  | error e => exact .inr (by simp [hb])
  | final ht => exact .inr (by simp [finalCore, ht])
  | bytes xs ht =>
    obtain ⟨hh, hv, hm, hw, hblk, hrnd⟩ := takeBytes_engine_registers_kept xs s.hc
    exact .inr ⟨hh, hv, hm, hw, hblk, hrnd, fun hb' => ⟨ht, takeBytes_phase_of_busy hb hb'⟩⟩

/-- Settles O56, by what one step can be. -/
theorem hostAccessesKeepTheirOrder : Obligations.HostAccessesKeepTheirOrder := by
  unfold Obligations.HostAccessesKeepTheirOrder
  intro s t h
  cases step_effect h with
  | rest => exact ⟨.inl rfl, .inl rfl⟩
  | engine => exact ⟨.inl rfl, .inl rfl⟩
  | poll => exact ⟨.inl rfl, .inr ⟨_, rfl⟩⟩
  | command _ _ _ _ _ _ ha hh => exact ⟨.inr ⟨ha, by simp [hh]⟩, .inl rfl⟩
  | illegal _ _ _ ha hh => exact ⟨.inr ⟨ha, by simp [hh]⟩, .inl rfl⟩
  | ignored _ _ _ ha hh => exact ⟨.inr ⟨ha, by simp [hh]⟩, .inl rfl⟩
  | read _ _ ha hh => exact ⟨.inr ⟨ha, by simp [hh]⟩, .inr ⟨_, rfl⟩⟩
  | waited _ ha hh => exact ⟨.inr ⟨ha, by simp [hh]⟩, .inr ⟨_, rfl⟩⟩

end Sys2Proof.Machine
end

section
/-! PROOFS. The opcode map of the CMD port (30_encoding.md R77) read as a decoder: a word is decoded by the one row that selects
it, and is ILLEGAL when none does. -/

namespace Sys2Proof

variable {w : Word} {r q : OpRow}

theorem OpRow.overlaps_comm (r q : OpRow) : r.overlaps q = q.overlaps r := by
  simp only [OpRow.overlaps, BitVec.and_comm r.mask, BitVec.xor_comm r.pattern]

theorem OpRow.overlaps_of_selects (hr : r.selects w = true) (hq : q.selects w = true) : r.overlaps q = true := by
  simp only [OpRow.selects, beq_iff_eq] at hr hq
  rw [OpRow.overlaps, ← hr, ← hq, beq_iff_eq]
  ext i hi
  simp only [BitVec.getElem_and, BitVec.getElem_xor, BitVec.getElem_zero]
  cases r.mask[i] <;> cases q.mask[i] <;> simp

/-- R77: "At most one row matches any word". -/
theorem cmdRow_unique (hr : r ∈ cmdRows) (hq : q ∈ cmdRows) (hrw : r.selects w = true) (hqw : q.selects w = true) :
    r = q := by
  by_contra hne
  have hsymm : Std.Symm fun r q : OpRow => r.overlaps q = false := ⟨fun r q h => (q.overlaps_comm r).trans h⟩
  exact absurd (OpRow.overlaps_of_selects hrw hqw) (by simp [cmdRows_disjoint.forall hr hq hne])

/-- A word that one CMD row selects is selected by no other. -/
theorem not_selects_of_ne (hrw : r.selects w = true) (hne : r ≠ q := by decide) (hr : r ∈ cmdRows := by decide)
    (hq : q ∈ cmdRows := by decide) : q.selects w = false :=
  Bool.eq_false_iff.mpr fun hqw => hne (cmdRow_unique hr hq hrw hqw)

theorem decode_of_nopRow (h : nopRow.selects w = true) : decode .cmd w = .ok .nop := by
  simp [decode, decodeCmd, h]

theorem decode_of_initRow (h : initRow.selects w = true) : decode .cmd w = .ok (.init (Alg.ofBit (algsel w))) := by
  have hn : nopRow.selects w = false := not_selects_of_ne h
  simp [decode, decodeCmd, h, hn]

theorem decode_of_absorbRow (h : absorbRow.selects w = true) : decode .cmd w = .ok (.absorb (byteOperand w)) := by
  have hn : nopRow.selects w = false := not_selects_of_ne h
  have hi : initRow.selects w = false := not_selects_of_ne h
  simp [decode, decodeCmd, h, hn, hi]

theorem decode_of_finalRow (h : finalRow.selects w = true) : decode .cmd w = .ok .final := by
  have hn : nopRow.selects w = false := not_selects_of_ne h
  have hi : initRow.selects w = false := not_selects_of_ne h
  have ha : absorbRow.selects w = false := not_selects_of_ne h
  simp [decode, decodeCmd, h, hn, hi, ha]

/-- What a word of the CMD port is decoded to, with the row that selects it. -/
inductive CmdDecoding (w : Word) : Except DecodeError Instr → Prop where
  | nop (h : nopRow.selects w = true) : CmdDecoding w (.ok .nop)
  | init (h : initRow.selects w = true) : CmdDecoding w (.ok (.init (Alg.ofBit (algsel w))))
  | absorb (h : absorbRow.selects w = true) : CmdDecoding w (.ok (.absorb (byteOperand w)))
  | final (h : finalRow.selects w = true) : CmdDecoding w (.ok .final)
  | illegal (e : DecodeError) (h : ∀ r ∈ cmdRows, r.selects w = false) : CmdDecoding w (.error e)

theorem noRow_iff : (∀ r ∈ cmdRows, r.selects w = false) ↔ nopRow.selects w = false ∧ initRow.selects w = false ∧
    absorbRow.selects w = false ∧ finalRow.selects w = false := by
  simp [cmdRows]

/-- R78: a word that no row selects is ILLEGAL. -/
theorem decode_of_noRow (h : ∀ r ∈ cmdRows, r.selects w = false) : ∃ e, decode .cmd w = .error e := by
  obtain ⟨hn, hi, ha, hf⟩ := noRow_iff.mp h
  simp only [decode, decodeCmd, hn, hi, ha, hf, Bool.false_eq_true, if_false]
  split <;> exact ⟨_, rfl⟩

theorem cmdDecoding (w : Word) : CmdDecoding w (decode .cmd w) := by
  by_cases h : ∃ r ∈ cmdRows, r.selects w = true
  · obtain ⟨r, hr, h⟩ := h
    simp only [cmdRows, List.mem_cons, List.not_mem_nil, or_false] at hr
    obtain rfl | rfl | rfl | rfl := hr
    · exact decode_of_nopRow h ▸ .nop h
    · exact decode_of_initRow h ▸ .init h
    · exact decode_of_absorbRow h ▸ .absorb h
    · exact decode_of_finalRow h ▸ .final h
  · have hnone : ∀ r ∈ cmdRows, r.selects w = false := fun r hr => Bool.eq_false_iff.mpr fun hw => h ⟨r, hr, hw⟩
    obtain ⟨e, he⟩ := decode_of_noRow hnone
    exact he ▸ .illegal e hnone

/-- R78: a CMD word is ILLEGAL exactly when no row selects it. -/
theorem decode_cmd_error_iff : (∃ e, decode .cmd w = .error e) ↔ ∀ r ∈ cmdRows, r.selects w = false := by
  refine ⟨?_, decode_of_noRow⟩
  rintro ⟨e, he⟩
  have h := cmdDecoding w
  rw [he] at h
  cases h with
  | illegal _ h => exact h

/-- R78: the words that no row selects, by OPC and OPND. -/
theorem noRow_iff_fields : (∀ r ∈ cmdRows, r.selects w = false) ↔
    4 ≤ w.toNat / 2 ^ 24 ∨ w.toNat / 2 ^ 24 = 0 ∧ w.toNat % 2 ^ 24 ≠ 0 ∨
      w.toNat / 2 ^ 24 = 1 ∧ 2 ≤ w.toNat % 2 ^ 24 ∨ w.toNat / 2 ^ 24 = 2 ∧ 2 ^ 8 ≤ w.toNat % 2 ^ 24 ∨
      w.toNat / 2 ^ 24 = 3 ∧ w.toNat % 2 ^ 24 ≠ 0 := by
  rw [noRow_iff]
  simp only [← Bool.not_eq_true, nopRow_selects, initRow_selects, absorbRow_selects, finalRow_selects,
    ← BitVec.toNat_inj, BitVec.toNat_ofNat]
  omega

end Sys2Proof
end

section
/-! PROOFS. The fields of a command word (30_encoding.md R71 to R76) and the round trips of the encoding. -/

namespace Sys2Proof

variable {w : Word}

theorem Alg.ofBit_bit (a : Alg) : Alg.ofBit a.bit = a := by cases a <;> rfl

theorem Alg.bit_ofBit (b : BitVec 1) : (Alg.ofBit b).bit = b := by
  revert b
  decide

theorem Alg.ofBit_algsel (w : Word) : Alg.ofBit (algsel w) = if w.getLsbD 0 then .sha256 else .md5 := by
  have h : algsel w = BitVec.ofBool (w.getLsbD 0) := by
    ext i hi
    obtain rfl : i = 0 := by omega
    simp [algsel]
  rw [h]
  cases w.getLsbD 0 <;> rfl

theorem byteOperand_eq_setWidth (w : Word) : byteOperand w = w.setWidth 8 :=
  (BitVec.setWidth_eq_extractLsb' (by decide)).symm

theorem algsel_cmdWord (c : BitVec 8) (b : BitVec 1) : algsel (cmdWord c (0#23 ++ b)) = b :=
  (BitVec.extractLsb'_append_eq_of_add_le (by decide)).trans BitVec.extractLsb'_append_eq_right

theorem byteOperand_cmdWord (c b : Byte) : byteOperand (cmdWord c (0#16 ++ b)) = b :=
  (BitVec.extractLsb'_append_eq_of_add_le (by decide)).trans BitVec.extractLsb'_append_eq_right

/-- R71: the number a command word is, OPC above the 24 bits of OPND. -/
theorem cmdWord_toNat (c : BitVec 8) (o : BitVec 24) : (cmdWord c o).toNat = c.toNat * 2 ^ 24 + o.toNat := by
  rw [cmdWord, BitVec.toNat_append, ← Nat.shiftLeft_add_eq_or_of_lt o.isLt, Nat.shiftLeft_eq]

theorem zero_append_toNat (n : Nat) {k : Nat} (x : BitVec k) : (0#n ++ x).toNat = x.toNat := by
  simp [BitVec.toNat_append]

/-- R73: a word of the INIT row is its opcode and ALGSEL. -/
theorem cmdWord_algsel (h : initRow.selects w = true) : cmdWord 0x01#8 (0#23 ++ algsel w) = w := by
  rw [initRow_selects] at h
  apply BitVec.eq_of_toNat_eq
  rw [cmdWord_toNat, zero_append_toNat 23, algsel, BitVec.extractLsb'_toNat, BitVec.toNat_ofNat]
  omega

/-- R74: a word of the ABSORB row is its opcode and BYTE. -/
theorem cmdWord_byteOperand (h : absorbRow.selects w = true) : cmdWord 0x02#8 (0#16 ++ byteOperand w) = w := by
  rw [absorbRow_selects] at h
  apply BitVec.eq_of_toNat_eq
  rw [cmdWord_toNat, zero_append_toNat 16, byteOperand, BitVec.extractLsb'_toNat, BitVec.toNat_ofNat]
  omega

/-- Settles O1: the encoder's word lies in its instruction's row, and that row's operand is the instruction's. -/
theorem decodeOfEncodeIsTheInstruction : Obligations.DecodeOfEncodeIsTheInstruction := by
  unfold Obligations.DecodeOfEncodeIsTheInstruction
  intro i _
  cases i with
  | nop => exact decode_of_nopRow Laws.RowMatch.nop.2
  | final => exact decode_of_finalRow Laws.RowMatch.final.2
  | data w => rfl
  | init a =>
    refine (decode_of_initRow (Laws.RowMatch.init a).2).trans ?_
    rw [encode, algsel_cmdWord, Alg.ofBit_bit]
  | absorb b =>
    refine (decode_of_absorbRow (Laws.RowMatch.absorb b).2).trans ?_
    rw [encode, byteOperand_cmdWord]

/-- Settles O2, by the row that selects the word: its opcode and the operand it holds are the whole word. -/
theorem encodeOfDecodeIsTheWord : Obligations.EncodeOfDecodeIsTheWord := by
  unfold Obligations.EncodeOfDecodeIsTheWord
  intro p w i hd
  cases p with
  | data =>
    cases hd
    rfl
  | cmd =>
    have h := cmdDecoding w
    rw [hd] at h
    cases h with
    | nop h => rw [nopRow_selects.mp h]; rfl
    | final h => rw [finalRow_selects.mp h]; rfl
    | init h => rw [encode, Alg.bit_ofBit, cmdWord_algsel h]
    | absorb h => rw [encode, cmdWord_byteOperand h]

/-- Settles O3: each clause is a row of the map, and no two rows overlap. -/
theorem decodeFollowsTheOpcodeMap : Obligations.DecodeFollowsTheOpcodeMap := by
  unfold Obligations.DecodeFollowsTheOpcodeMap
  intro w
  refine ⟨fun h => decode_of_nopRow (nopRow_selects.mpr h), fun h => ?_, fun h => ?_,
    fun h => decode_of_finalRow (finalRow_selects.mpr h), fun hn hi ha hf => decode_of_noRow ?_, rfl,
    fun _ hr _ hq hrw hqw => cmdRow_unique hr hq hrw hqw⟩
  · rw [← Alg.ofBit_algsel]
    exact decode_of_initRow (beq_iff_eq.mpr h)
  · rw [← byteOperand_eq_setWidth]
    exact decode_of_absorbRow (beq_iff_eq.mpr h)
  · rw [noRow_iff]
    simp only [← Bool.not_eq_true, nopRow_selects, finalRow_selects]
    exact ⟨hn, beq_iff_eq.not.mpr hi, beq_iff_eq.not.mpr ha, hf⟩

/-- Settles O5: each word, bit by bit. -/
theorem writtenOutWordsDecode : Obligations.WrittenOutWordsDecode := by
  unfold Obligations.WrittenOutWordsDecode
  exact ⟨rfl, rfl, rfl, rfl, rfl, rfl⟩

end Sys2Proof
end

section
/-! PROOFS. Words written to a port: ILLEGAL words (30_encoding.md R78), a placed word of the opcode table, and the host's loop WAIT
(R80). -/

namespace Sys2Proof.Machine

variable {w : Word} {s : State} {p : Port} {i : Instr} {rest : List HostOp}

theorem portWrite_of_ok (hd : decode p w = .ok i) (s : State) : portWrite p w s = exec i s := by
  simp [portWrite, hd]

theorem portWrite_of_error {e : DecodeError} (hd : decode p w = .error e) (s : State) :
    portWrite p w s = .next { s with hc := raiseErr .illegal s.hc } := by
  simp [portWrite, hd, execIllegal, State.setHc]

/-- Settles O4: a word is ILLEGAL when no row selects it. -/
theorem illegalWordsRaiseIllegalAndNothingElse : Obligations.IllegalWordsRaiseIllegalAndNothingElse := by
  unfold Obligations.IllegalWordsRaiseIllegalAndNothingElse
  intro w s
  refine ⟨(decode_cmd_error_iff.trans noRow_iff_fields).symm, fun ⟨_, he⟩ => portWrite_of_error he s, fun hok => ?_⟩
  match hd : decode .cmd w with
  | .error e => exact absurd ⟨e, hd⟩ hok
  | .ok i => exact ⟨i, rfl, portWrite_of_ok hd s, fun x hx => decode_cmd_ne_data w x (hx ▸ hd)⟩

/-- At the host's turn a write to a port is the whole step (R58, R90). -/
theorem step_portWrite {off : Int} (ha : nextAgent s = some .host) (hh : s.host = .access (.write off 4 w) :: rest)
    (hp : off = 0x000 ∧ p = .cmd ∨ off = 0x008 ∧ p = .data) :
    step s = portWrite p w { s.useTurn with host := rest } := by
  rw [step_access ha hh]
  obtain ⟨rfl, rfl⟩ | ⟨rfl, rfl⟩ := hp <;> rw [busAccess_write rfl] <;> rfl

/-- A write placed with a turn of its own is the host's, busy or not (R58). -/
theorem nextAgent_placeWrite (s : State) (p : Port) (w : Word) : nextAgent (s.placeWrite p w) = some .host := by
  simp only [nextAgent, State.placeWrite, List.isEmpty_cons]
  cases s.hc.busy <;> rfl

theorem step_placeWrite (s : State) (p : Port) (w : Word) : step (s.placeWrite p w) = portWrite p w s :=
  step_portWrite (nextAgent_placeWrite s p w) rfl (by cases p <;> simp)

theorem decodeTableWord_eq_some {n k : Nat} :
    decodeTableWord n k = some i ↔ decode (tablePort (tableWord n k)) (tableWord n k) = .ok i := by
  unfold decodeTableWord
  split <;> simp_all

/-- Settles O42: the step is the placed write, and the write is the word's command. -/
theorem placedWordIsRunByTheNextStep : Obligations.PlacedWordIsRunByTheNextStep := by
  unfold Obligations.PlacedWordIsRunByTheNextStep
  intro s w i h
  exact (step_placeWrite s _ _).trans (portWrite_of_ok (decodeTableWord_eq_some.mp h) s)

/-- R80: one turn of WAIT reads STATUS, whose bit 0 is BUSY. -/
theorem hostTurn_wait (hh : s.host = .wait :: rest) :
    hostTurn s = .next { s.logRead s.hc.status with host := if s.hc.busy then s.host else rest } := by
  simp only [hostTurn, hh, (status_flags s.hc).1]
  cases s.hc.busy with
  | false => rfl
  | true => rw [← hh]; rfl

/-- Settles O46: bit 0 of the STATUS that WAIT reads is BUSY. -/
theorem waitPollsStatusUntilNotBusy : Obligations.WaitPollsStatusUntilNotBusy := by
  unfold Obligations.WaitPollsStatusUntilNotBusy
  intro s rest ha hh
  have hstep := (step_of_host ha).trans (hostTurn_wait (s := s.useTurn) hh)
  exact ⟨fun hb => by simpa [hb] using hstep, fun hb => by simpa [hb] using hstep⟩

end Sys2Proof.Machine
end

section
/-! PROOFS. The host commands (40_host_commands.md): what each does when it is accepted (R92 to R96), when it is rejected (R91,
R95), and what it leaves as it is. -/

namespace Sys2Proof.Machine

variable {c : HashCore} {s : State} {i : Instr} {e : ErrCode}

/-- A command whose check fails raises its error and does nothing else (R90). -/
theorem checked_of_some {check : Option ErrCode} (h : check = some e) (effect : HashCore) (s : State) :
    checked check effect s = .next { s with hc := raiseErr e s.hc } := by
  rw [h]; rfl

theorem checked_of_none {check : Option ErrCode} (h : check = none) (effect : HashCore) (s : State) :
    checked check effect s = .next (s.setHc effect) := by
  rw [h]; rfl

/-- Without INIT no data command is taken, whatever the engine does (R91). -/
theorem dataCheck_of_not_initd (hi : c.initd = false) : dataCheck c = some .noinit := by
  simp [dataCheck, hi]

theorem dataCheck_of_working (hi : c.initd = true) (hidle : c.phase ≠ .idle) (hdone : c.phase ≠ .done) :
    dataCheck c = some .busy := by
  have hb : c.busy = true := by rw [busy_iff]; cases hp : c.phase <;> simp_all
  simp [dataCheck, hi, hb]

theorem dataCheck_of_done (hi : c.initd = true) (hp : c.phase = .done) : dataCheck c = some .done := by
  simp [dataCheck, hi, hp, HashCore.busy, HashCore.isDone, Phase.busy]

/-- DataCheck comes before the alignment check of DATA (R95, R214). -/
theorem dataWordCheck_of_dataCheck (h : dataCheck c = some e) : dataWordCheck c = some e := by
  simp [dataWordCheck, h]

theorem dataWordCheck_of_unaligned (hi : c.initd = true) (hp : c.phase = .idle) (hf : c.fill.toNat % 4 ≠ 0) :
    dataWordCheck c = some .align := by
  simp [dataWordCheck, dataCheck_eq_none.mpr ⟨hi, hp⟩, hf]

/-- A data command that DataCheck rejects (R91). -/
theorem exec_of_dataCheck (hd : (∃ b, i = .absorb b) ∨ (∃ w, i = .data w) ∨ i = .final) (h : dataCheck s.hc = some e) :
    exec i s = .next { s with hc := raiseErr e s.hc } := by
  obtain ⟨b, rfl⟩ | ⟨w, rfl⟩ | rfl := hd
  · exact checked_of_some h _ s
  · exact checked_of_some (dataWordCheck_of_dataCheck h) _ s
  · exact checked_of_some h _ s

/-- An accepted ABSORB takes one byte (R94). -/
theorem exec_absorb_accepted (b : Byte) (hi : s.hc.initd = true) (hp : s.hc.phase = .idle) :
    exec (.absorb b) s = .next (s.setHc (takeBytes [b] s.hc)) :=
  checked_of_none (dataCheck_eq_none.mpr ⟨hi, hp⟩) _ s

/-- An accepted DATA takes the four bytes of its word (R95). -/
theorem exec_data_accepted (w : Word) (hi : s.hc.initd = true) (hp : s.hc.phase = .idle)
    (hf : s.hc.fill.toNat % 4 = 0) : exec (.data w) s = .next (s.setHc (takeBytes (dataBytes w) s.hc)) :=
  checked_of_none (dataWordCheck_eq_none.mpr ⟨hi, hp, hf⟩) _ s

/-- An accepted FINAL builds the tail and starts the engine (R96). -/
theorem exec_final_accepted (hi : s.hc.initd = true) (hp : s.hc.phase = .idle) :
    exec .final s = .next (s.setHc (finalCore s.hc)) :=
  checked_of_none (dataCheck_eq_none.mpr ⟨hi, hp⟩) _ s

/-- Message bytes taken at rest, for the FILL k from which they complete the block (R29, R30). -/
theorem takeBytes_of_idle {xs : List Byte} {k : Nat} (hk : k + xs.length = 64) (hp : c.phase = .idle) :
    takeBytes xs c = { c with
      buf := wrBytes c.buf c.fill.toNat xs
      len := c.len + BitVec.ofNat 64 xs.length
      fill := if c.fill.toNat = k then 0#6 else c.fill + BitVec.ofNat 6 xs.length
      phase := if c.fill.toNat = k then .load else .idle } := by
  have hfull : c.fill.toNat + xs.length = 64 ↔ c.fill.toNat = k := by omega
  by_cases h : c.fill.toNat = k <;> simp [takeBytes, countBytes, hfull, h, hk, hp]

theorem finalCore_of_le (h : c.fill.toNat ≤ 55) :
    finalCore c = { c with
      buf := lastTail c.alg c.len c.fill.toNat c.buf, pstate := .last, fill := 0#6, phase := .load } := by
  simp [finalCore, padTail, h]

theorem finalCore_of_ge (h : 56 ≤ c.fill.toNat) :
    finalCore c = { c with
      buf := firstTail c.fill.toNat c.buf, pstate := .tail2, fill := 0#6, phase := .load } := by
  simp [finalCore, padTail, show ¬c.fill.toNat ≤ 55 by omega]

section Tails
variable (alg : Alg) (len : BitVec 64) {f j : Nat} (buf : Vector Byte 64)

/-- The last tail byte by byte (R123): message, marker, zeros, length. -/
theorem rd_lastTail (hj : j < 64) : rd (lastTail alg len f buf) j =
    if j < f then rd buf j else if j = f then 0x80#8 else if j < 56 then 0x00#8
      else (lenField alg len).getD (j - 56) 0#8 :=
  rd_tab_lt _ hj

/-- The length field of the last tail stands in its bytes 56 to 63 (R121, R123). -/
theorem rd_lastTail_length {n : Nat} (hf : f ≤ 55) (hn : n < 8) :
    rd (lastTail alg len f buf) (56 + n) = (lenField alg len).getD n 0#8 := by
  rw [rd_lastTail _ _ _ (by omega), if_neg (by omega), if_neg (by omega), if_neg (by omega), Nat.add_sub_cancel_left]

/-- The first of two tails byte by byte (R123): message, marker, zeros. -/
theorem rd_firstTail (hj : j < 64) : rd (firstTail f buf) j =
    if j < f then rd buf j else if j = f then 0x80#8 else 0x00#8 :=
  rd_tab_lt _ hj

end Tails

/-- FINAL keeps the message bytes, which stand below FILL (R123). -/
theorem rd_finalCore_below {j : Nat} (hj : j < c.fill.toNat) : rd (finalCore c).buf j = rd c.buf j := by
  have hfill : c.fill.toNat < 64 := c.fill.isLt
  rcases Nat.lt_or_ge c.fill.toNat 56 with h | h
  · rw [finalCore_of_le (by omega), rd_lastTail _ _ _ (by omega), if_pos hj]
  · rw [finalCore_of_ge h, rd_firstTail _ (by omega), if_pos hj]

/-- Taking bytes changes no byte of BUF outside the ones it writes (R94, R95). -/
theorem rd_takeBytes_outside {xs : List Byte} {j : Nat} (hj : j < c.fill.toNat ∨ c.fill.toNat + xs.length ≤ j) :
    rd (takeBytes xs c).buf j = rd c.buf j := by
  simpa [takeBytes] using rd_wrBytes_outside xs c.buf c.fill.toNat hj

/-- The registers no command but INIT writes (R92 to R96, R212). -/
theorem CommandEffect.registers_kept {c' : HashCore} (h : CommandEffect i c c') (hi : ∀ a, i ≠ .init a) :
    c'.alg = c.alg ∧ c'.initd = c.initd ∧ c'.h = c.h ∧ c'.v = c.v ∧ c'.m = c.m ∧ c'.w = c.w ∧
      c'.blkcnt = c.blkcnt ∧ c'.rnd = c.rnd := by
  cases h with
  | nop => simp
  | init a => exact absurd rfl (hi a)
  | absorb => simp [takeBytes]
  | data => simp [takeBytes]
  | final => simp [finalCore]
  | rejected => simp

theorem CommandEffect.pstate_kept {c' : HashCore} (h : CommandEffect i c c') (hi : ∀ a, i ≠ .init a) (hf : i ≠ .final) :
    c'.pstate = c.pstate := by
  cases h with
  | nop => rfl
  | init a => exact absurd rfl (hi a)
  | absorb => simp [takeBytes]
  | data => simp [takeBytes]
  | final => exact absurd rfl hf
  | rejected => simp

theorem CommandEffect.eq_of_nop {c' : HashCore} (h : CommandEffect .nop c c') : c' = c := by
  cases h with
  | nop => rfl
  | rejected _ _ _ _ hn => exact absurd rfl hn

/-- The bytes of BUF that a command other than INIT leaves: those below FILL, and those past the ones it takes. -/
theorem CommandEffect.buf_kept {c' : HashCore} (h : CommandEffect i c c') (hi : ∀ a, i ≠ .init a) {j : Nat}
    (hj : j < c.fill.toNat ∨ i = .nop ∨ ((∃ b, i = .absorb b) ∧ c.fill.toNat + 1 ≤ j) ∨
      ((∃ w, i = .data w) ∧ c.fill.toNat + 4 ≤ j)) : rd c'.buf j = rd c.buf j := by
  cases h with
  | nop => rfl
  | init a => exact absurd rfl (hi a)
  | absorb b => exact rd_takeBytes_outside (by simpa using hj)
  | data w => exact rd_takeBytes_outside (by simpa using hj)
  | final => exact rd_finalCore_below (by simpa using hj)
  | rejected => rw [raiseErr_buf]

/-- Settles O7: an array of zeros reads 0 at every index, and the other registers are `initCore`'s. -/
theorem initLoadsInitialValuesAndClearsTheRest : Obligations.InitLoadsInitialValuesAndClearsTheRest := by
  unfold Obligations.InitLoadsInitialValuesAndClearsTheRest
  refine ⟨rfl, rfl, fun w s hopc hopnd => ?_, fun a s => ?_⟩
  · obtain ⟨e, he⟩ := decode_of_noRow (noRow_iff_fields.mpr (.inr (.inr (.inl ⟨hopc, hopnd⟩))))
    exact portWrite_of_error he s
  · exact ⟨initCore a, rfl, rfl, rfl, by rintro rfl; rfl, by rintro rfl; rfl, rd_replicate, rd_replicate, rd_replicate,
      rd_replicate, rfl, rfl, rfl, rfl, rfl, rfl, rfl, rfl⟩

/-- Settles O9: the buffer is the old one with one byte written at FILL. -/
theorem absorbAppendsOneByte : Obligations.AbsorbAppendsOneByte := by
  unfold Obligations.AbsorbAppendsOneByte
  intro b s hi hp
  refine ⟨wrBytes s.hc.buf s.hc.fill.toNat [b], ?_, ?_, fun i _ hne => ?_⟩
  · rw [exec_absorb_accepted b hi hp, takeBytes_of_idle (k := 63) rfl hp]
    rfl
  · exact rd_wrBytes_inside [b] s.hc.buf s.hc.fill.toNat (n := 0) Nat.one_pos s.hc.fill.isLt
  · exact rd_wrBytes_outside [b] s.hc.buf s.hc.fill.toNat (Nat.lt_or_gt_of_ne hne)

/-- Settles O10: the buffer is the old one with the four bytes of the word written from FILL on. -/
theorem dataAppendsFourBytesLeastSignificantFirst : Obligations.DataAppendsFourBytesLeastSignificantFirst := by
  unfold Obligations.DataAppendsFourBytesLeastSignificantFirst
  intro w s hi hp hf
  have hfill : s.hc.fill.toNat < 64 := s.hc.fill.isLt
  refine ⟨wrBytes s.hc.buf s.hc.fill.toNat (dataBytes w), ?_, fun n hn => ?_, fun i _ hout => ?_⟩
  · rw [exec_data_accepted w hi hp hf, takeBytes_of_idle (k := 60) rfl hp]
    rfl
  · rw [rd_wrBytes_inside _ _ _ hn (by omega)]
    simp [dataBytes, leBytes, byteOf, hn]
  · exact rd_wrBytes_outside _ _ _ hout

/-- Settles O11, by the bytes of the last tail. -/
theorem finalBuildsTheLastBlock : Obligations.FinalBuildsTheLastBlock := by
  unfold Obligations.FinalBuildsTheLastBlock
  intro s hi hp hf
  refine ⟨lastTail s.hc.alg s.hc.len s.hc.fill.toNat s.hc.buf, ?_, fun i hlt => ?_, ?_, fun i hgt hlt => ?_,
    fun ha n hn => ?_, fun ha n hn => ?_⟩
  · rw [exec_final_accepted hi hp, finalCore_of_le hf]
    rfl
  · rw [rd_lastTail _ _ _ (by omega), if_pos hlt]
  · rw [rd_lastTail _ _ _ (by omega), if_neg (by omega), if_pos rfl]
  · rw [rd_lastTail _ _ _ (by omega), if_neg (by omega), if_neg (by omega), if_pos hlt]
  · rw [rd_lastTail_length _ _ _ hf hn, ha, lenField_getD _ _ hn]
  · rw [rd_lastTail_length _ _ _ hf hn, ha, lenField_getD _ _ hn]

/-- Settles O12, by the bytes of the first tail. -/
theorem finalBuildsTheFirstOfTwoTailBlocks : Obligations.FinalBuildsTheFirstOfTwoTailBlocks := by
  unfold Obligations.FinalBuildsTheFirstOfTwoTailBlocks
  intro s hi hp hf
  have hfill : s.hc.fill.toNat < 64 := s.hc.fill.isLt
  refine ⟨firstTail s.hc.fill.toNat s.hc.buf, ?_, fun i hlt => ?_, ?_, fun i hgt hlt => ?_⟩
  · rw [exec_final_accepted hi hp, finalCore_of_ge hf]
    rfl
  · rw [rd_firstTail _ (by omega), if_pos hlt]
  · rw [rd_firstTail _ hfill, if_neg (by omega), if_pos rfl]
  · rw [rd_firstTail _ hlt, if_neg (by omega), if_neg (by omega)]

/-- Settles O13, by the check that fails. -/
theorem rejectedDataCommandsOnlyRaiseTheirError : Obligations.RejectedDataCommandsOnlyRaiseTheirError := by
  unfold Obligations.RejectedDataCommandsOnlyRaiseTheirError
  intro i s hd
  refine ⟨fun hi => exec_of_dataCheck hd (dataCheck_of_not_initd hi),
    fun hi hidle hdone => exec_of_dataCheck hd (dataCheck_of_working hi hidle hdone),
    fun hi hp => exec_of_dataCheck hd (dataCheck_of_done hi hp), ?_⟩
  rintro hi hp hf ⟨w, rfl⟩
  exact checked_of_some (dataWordCheck_of_unaligned hi hp hf) _ s

/-- Settles O15, by the effect each command can have. -/
theorem dataCommandsLeaveTheRestUnchanged : Obligations.DataCommandsLeaveTheRestUnchanged := by
  unfold Obligations.DataCommandsLeaveTheRestUnchanged
  intro i s t hi h
  obtain ⟨c, rfl, he⟩ := exec_next h
  refine ⟨⟨rfl, rfl, rfl⟩, he.registers_kept hi, he.pstate_kept hi, ?_, fun j _ hj => he.buf_kept hi hj⟩
  rintro rfl
  exact he.eq_of_nop

/-- Settles O6: a word with OPC 0 and a non-zero OPND is in no row of the map. -/
theorem nopChangesNothing : Obligations.NopChangesNothing := by
  unfold Obligations.NopChangesNothing
  exact ⟨fun _ => rfl, rfl, fun w hopc hopnd => decode_of_noRow (noRow_iff_fields.mpr (.inr (.inl ⟨hopc, hopnd⟩)))⟩

end Sys2Proof.Machine
end

section
/-! PROOFS. Turns of the host and of the engine (20_memory.md R58, 40_host_commands.md R90, R97). -/

namespace Sys2Proof.Machine

/-- Settles O28: a micro-step is enabled in a busy phase only, and under the invariants each busy phase has one. -/
theorem engineHasAStepExactlyWhenBusy : Obligations.EngineHasAStepExactlyWhenBusy := by
  unfold Obligations.EngineHasAStepExactlyWhenBusy
  exact fun c hc => ⟨fun ⟨_, h⟩ => (microStep_effect h).busy, microStep_of_busy hc⟩

/-- Settles O40: the step is the write to the port, and the write is the decoded command. -/
theorem stepRunsTheDecodedCommand : Obligations.StepRunsTheDecodedCommand := by
  unfold Obligations.StepRunsTheDecodedCommand
  intro s p w i rest ha hh hd
  rw [step_portWrite (p := p) ha hh (by cases p <;> simp), portWrite_of_ok hd]
  rfl

/-- Settles O41: the step is the write to CMD, and the write is the ILLEGAL error. -/
theorem stepOfAnIllegalWordRaisesIllegal : Obligations.StepOfAnIllegalWordRaisesIllegal := by
  unfold Obligations.StepOfAnIllegalWordRaisesIllegal
  intro s w e rest ha hh hd
  rw [step_portWrite ha hh (.inl ⟨rfl, rfl⟩), portWrite_of_error hd]
  rfl

section NextAgent
variable {s : State}

theorem nextAgent_of_host_only (hb : s.hc.busy = false) (hh : s.host ≠ []) : nextAgent s = some .host := by
  simp [nextAgent, hb, List.isEmpty_eq_false_iff.mpr hh]

theorem nextAgent_of_engine_only (hb : s.hc.busy = true) (hh : s.host = []) : nextAgent s = some .engine := by
  simp [nextAgent, hb, hh]

/-- Where both agents can move the schedule says which, and the engine moves when it is used up (R58, R251). -/
theorem nextAgent_of_both (hb : s.hc.busy = true) (hh : s.host ≠ []) : nextAgent s = some (s.sched.headD .engine) := by
  simp [nextAgent, hb, List.isEmpty_eq_false_iff.mpr hh]

theorem nextAgent_eq_none : nextAgent s = none ↔ s.hc.busy = false ∧ s.host = [] := by
  by_cases hh : s.host = [] <;> cases hb : s.hc.busy
  · simp [nextAgent, hb, hh]
  · simp [nextAgent_of_engine_only hb hh]
  · simp [nextAgent_of_host_only hb hh, hh]
  · simp [nextAgent_of_both hb hh]

end NextAgent

/-- Settles O43, by which of the agents can move. -/
theorem onlyAnEnabledAgentMoves : Obligations.OnlyAnEnabledAgentMoves := by
  unfold Obligations.OnlyAnEnabledAgentMoves
  exact fun s => ⟨nextAgent_eq_none, nextAgent_of_host_only, nextAgent_of_engine_only,
    fun hb hh g rest hs => by rw [nextAgent_of_both hb hh, hs]; rfl,
    fun hb hh hs => by rw [nextAgent_of_both hb hh, hs]; rfl⟩

/-- Settles O44: the engine's turn is its micro-step. -/
theorem engineTurnIsOneMicroStep : Obligations.EngineTurnIsOneMicroStep := by
  unfold Obligations.EngineTurnIsOneMicroStep
  intro s c ha hm
  have hturn : engineTurn s.useTurn = .next (s.useTurn.setHc c) := by simp [engineTurn, hm]
  exact (step_of_engine ha).trans hturn

end Sys2Proof.Machine
end

section
/-! PROOFS. The padded stream and its blocks (41_padding.md R120 to R125). -/

namespace Sys2Proof.Machine

section PaddedStream
variable (alg : Alg) (msg : List Byte)

/-- R122: the marker and the zeros end 8 bytes before a block boundary. -/
theorem add_padZeros_mod (n : Nat) : (n + 1 + padZeros n) % 64 = 56 := by
  unfold padZeros; omega

theorem padZeros_lt (n : Nat) : padZeros n < 64 := Nat.mod_lt _ (by decide)

/-- R122: the zero count is the least that works, being below 64. -/
theorem padZeros_le {n k : Nat} (h : (n + 1 + k) % 64 = 56) : padZeros n ≤ k := by
  have hz := add_padZeros_mod n
  have hlt := padZeros_lt n
  omega

/-- R122: the zero count in the integers, where the difference can be negative. -/
theorem padZeros_int (n : Nat) : (padZeros n : Int) = (55 - (n : Int)) % 64 := by
  unfold padZeros; omega

/-- R123: counted from the block in progress, the zeros end at index 56 of that block when FILL ≤ 55. -/
theorem add_padZeros_of_le {n : Nat} (h : n % 64 ≤ 55) : n % 64 + 1 + padZeros n = 56 := by
  unfold padZeros; omega

/-- R123, R124: when FILL ≥ 56 they end at index 56 of the block after it. -/
theorem add_padZeros_of_ge {n : Nat} (h : 56 ≤ n % 64) : n % 64 + 1 + padZeros n = 120 := by
  unfold padZeros; omega

theorem pad_length : (pad alg msg).length = msg.length + 1 + padZeros msg.length + 8 := by
  simp only [pad, List.length_append, List.length_singleton, List.length_replicate, lenField_length]

/-- R122: the stream is whole blocks, of which there are floor((L + 8) / 64) + 1. -/
theorem pad_length_blocks : (pad alg msg).length = 64 * ((msg.length + 8) / 64 + 1) := by
  have hz := add_padZeros_mod msg.length
  have hlt := padZeros_lt msg.length
  rw [pad_length]
  omega

theorem blocksOf_length (bytes : List Byte) : (blocksOf bytes).length = bytes.length / 64 := by
  rw [blocksOf, List.length_map, List.length_range]

/-- R120, R121: the length field stands after the zeros, and counts the bits of the message modulo 2^64. -/
theorem pad_getD_length {n : Nat} (hn : n < 8) :
    (pad alg msg).getD (msg.length + 1 + padZeros msg.length + n) 0#8 =
      BitVec.ofNat 8 (8 * msg.length % 2 ^ 64 / 256 ^ (match alg with | .md5 => n | .sha256 => 7 - n)) := by
  have hlen : 8 * (BitVec.ofNat 64 msg.length).toNat % 2 ^ 64 = 8 * msg.length % 2 ^ 64 := by
    rw [BitVec.toNat_ofNat, Nat.mul_mod_mod]
  rw [pad_getD, if_neg (by omega), if_neg (by omega), if_neg (by omega), Nat.add_sub_cancel_left, ← hlen]
  exact lenField_getD alg _ hn

/-- The padded stream from the block in progress on: the message bytes of that block, marker, zeros, length (R120). -/
theorem pad_getD_from_last_block (i : Nat) :
    (pad alg msg).getD (64 * (msg.length / 64) + i) 0#8 =
      if i < msg.length % 64 then msg.getD (64 * (msg.length / 64) + i) 0#8
      else if i = msg.length % 64 then 0x80#8
      else if i < msg.length % 64 + 1 + padZeros msg.length then 0x00#8
      else (lenField alg (BitVec.ofNat 64 msg.length)).getD (i - (msg.length % 64 + 1 + padZeros msg.length)) 0#8 := by
  have hL : msg.length = 64 * (msg.length / 64) + msg.length % 64 := (Nat.div_add_mod _ _).symm
  have hlt : 64 * (msg.length / 64) + i < msg.length ↔ i < msg.length % 64 := by omega
  have heq : 64 * (msg.length / 64) + i = msg.length ↔ i = msg.length % 64 := by omega
  have hzero : 64 * (msg.length / 64) + i < msg.length + 1 + padZeros msg.length ↔
      i < msg.length % 64 + 1 + padZeros msg.length := by omega
  have hsub : 64 * (msg.length / 64) + i - (msg.length + 1 + padZeros msg.length) =
      i - (msg.length % 64 + 1 + padZeros msg.length) := by omega
  simp only [pad_getD, hlt, heq, hzero, hsub]

/-- The blocks of the padded stream: the full blocks of the message, then those from the block in progress on (R125). -/
theorem blocksOf_pad {n : Nat} (hn : (msg.length + 8) / 64 + 1 = msg.length / 64 + n) :
    blocksOf (pad alg msg) =
      ((List.range (msg.length / 64)).map fun k => tab 64 fun i => msg.getD (64 * k + i) 0#8) ++
        (List.range n).map fun j => tab 64 fun i => (pad alg msg).getD (64 * (msg.length / 64) + (64 * j + i)) 0#8 := by
  rw [blocksOf, pad_length_blocks, Nat.mul_div_cancel_left _ (by decide), hn, List.range_add, List.map_append,
    List.map_map]
  congr 1
  · refine List.map_congr_left fun k hk => eq_of_rd fun i hi => ?_
    have hk : k < msg.length / 64 := List.mem_range.mp hk
    rw [rd_tab_lt _ hi, rd_tab_lt _ hi, pad_getD, if_pos (by omega)]
  · refine List.map_congr_left fun j _ => ?_
    simp only [Function.comp_apply, Nat.mul_add, Nat.add_assoc]

end PaddedStream

/-- Settles O31: the zero count is `padZeros`, and each part of the stream is read off it byte by byte. -/
theorem paddedStreamIsMessageMarkerZerosLength : Obligations.PaddedStreamIsMessageMarkerZerosLength := by
  unfold Obligations.PaddedStreamIsMessageMarkerZerosLength
  intro alg msg
  refine ⟨padZeros msg.length, add_padZeros_mod _, fun _ => padZeros_le, padZeros_int _, pad_length _ _, ?_, ?_,
    fun i hi => ?_, ?_, fun i hgt hlt => ?_, fun n hn => ?_⟩
  · rw [pad_length_blocks, Nat.mul_mod_right]
  · rw [blocksOf_length, pad_length_blocks, Nat.mul_div_cancel_left _ (by decide)]
  · rw [pad_getD, if_pos hi]
  · rw [pad_getD, if_neg (Nat.lt_irrefl _), if_pos rfl]
  · rw [pad_getD, if_neg (by omega), if_neg (by omega), if_pos hlt]
  · exact pad_getD_length alg msg hn

section TailBlocks
variable (alg : Alg) {msg : List Byte} {buf : Vector Byte 64}

/-- R124, R125: with FILL ≥ 56 the zeros go on to index 56 of the next block, and the length field fills it. -/
theorem pad_block_eq_secondTail (hf : 56 ≤ msg.length % 64) :
    (tab 64 fun i => (pad alg msg).getD (64 * (msg.length / 64) + (64 + i)) 0#8) =
      secondTail alg (BitVec.ofNat 64 msg.length) := by
  refine eq_of_rd fun i hi => ?_
  rw [rd_tab_lt _ hi, secondTail, rd_tab_lt _ hi, pad_getD_from_last_block, add_padZeros_of_ge hf,
    if_neg (by omega), if_neg (by omega), show 64 + i - 120 = i - 56 by omega]
  exact if_ctx_congr (by omega) (fun _ => rfl) fun _ => rfl

variable (hbuf : ∀ i, i < msg.length % 64 → rd buf i = msg.getD (64 * (msg.length / 64) + i) 0#8)
include hbuf

/-- R123, R125: with FILL ≤ 55 the zeros end at index 56 of the block in progress, and the length field fills it. -/
theorem pad_block_eq_lastTail (hf : msg.length % 64 ≤ 55) :
    (tab 64 fun i => (pad alg msg).getD (64 * (msg.length / 64) + i) 0#8) =
      lastTail alg (BitVec.ofNat 64 msg.length) (msg.length % 64) buf := by
  refine eq_of_rd fun i hi => ?_
  rw [rd_tab_lt _ hi, rd_lastTail _ _ _ hi, pad_getD_from_last_block, add_padZeros_of_le hf]
  exact if_ctx_congr Iff.rfl (fun h => (hbuf i h).symm) fun _ => rfl

/-- R123, R125: with FILL ≥ 56 the block in progress ends in zeros. -/
theorem pad_block_eq_firstTail (hf : 56 ≤ msg.length % 64) :
    (tab 64 fun i => (pad alg msg).getD (64 * (msg.length / 64) + i) 0#8) = firstTail (msg.length % 64) buf := by
  refine eq_of_rd fun i hi => ?_
  rw [rd_tab_lt _ hi, rd_firstTail _ hi, pad_getD_from_last_block, add_padZeros_of_ge hf,
    if_pos (show i < 120 by omega)]
  exact if_ctx_congr Iff.rfl (fun h => (hbuf i h).symm) fun _ => rfl

end TailBlocks

/-- Settles O32: from the block in progress on the stream has one block or two, and they are the tails. -/
theorem tailBlocksAreTheEndOfThePaddedStream : Obligations.TailBlocksAreTheEndOfThePaddedStream := by
  unfold Obligations.TailBlocksAreTheEndOfThePaddedStream
  intro alg msg buf f len full hbuf
  refine ⟨fun hf => ?_, fun hf => ?_⟩
  · rw [blocksOf_pad alg msg (n := 1) (by omega), ← pad_block_eq_lastTail alg hbuf hf]
    simp [full]
  · rw [blocksOf_pad alg msg (n := 2) (by omega), ← pad_block_eq_firstTail alg hbuf hf,
      ← pad_block_eq_secondTail alg hf]
    simp [full, List.range_succ]

end Sys2Proof.Machine
end

section
/-! PROOFS. The MD5 message scheduler (42_md5_scheduler.md): the words the load makes of a block, and the order in which the
rounds read them. -/

namespace Sys2Proof.Machine

/-- R130: word k of a block, with its four bytes written out. -/
theorem rd_md5Words (buf : Vector Byte 64) {k : Nat} (hk : k < 16) :
    rd (md5Words buf) k = rd buf (4 * k + 3) ++ rd buf (4 * k + 2) ++ rd buf (4 * k + 1) ++ rd buf (4 * k) := by
  rw [md5Words, rd_tab_lt _ hk, le32_append]

/-- Settles O16: the micro-step is the MD5 load, and M is `md5Words` of the buffer. -/
theorem md5LoadReadsLittleEndianWords : Obligations.Md5LoadReadsLittleEndianWords := by
  unfold Obligations.Md5LoadReadsLittleEndianWords
  exact fun c hp ha => ⟨md5Words c.buf, microStep_loadMd5 hp ha, fun _ hk => rd_md5Words c.buf hk⟩

/-- The inverse of R131's index within quartile q: the one of its rounds that reads word k. The factors 5, 3 and 7 of R131 have
the inverses 13, 11 and 7 modulo 16. -/
def md5RoundReading (q k : Nat) : Nat :=
  match q with
  | 0 => k
  | 1 => (13 * k + 3) % 16
  | 2 => (11 * k + 9) % 16
  | _ => 7 * k % 16

theorem md5RoundReading_lt (q : Nat) {k : Nat} (hk : k < 16) : md5RoundReading q k < 16 := by
  unfold md5RoundReading
  split
  · exact hk
  all_goals exact Nat.mod_lt _ (by decide)

/-- R131, R132: in each quartile one round reads word k, and no other. -/
theorem md5Index_eq_iff {q j k : Nat} (hq : q < 4) (hj : j < 16) (hk : k < 16) :
    md5Index (16 * q + j) = k ↔ j = md5RoundReading q k := by
  rw [md5Index_eq]
  match q, hq with
  | 0, _ =>
    rw [if_pos (by omega), md5RoundReading]
    omega
  | 1, _ =>
    rw [if_neg (by omega), if_pos (by omega), md5RoundReading]
    omega
  | 2, _ =>
    rw [if_neg (by omega), if_neg (by omega), if_pos (by omega), md5RoundReading]
    omega
  | 3, _ =>
    rw [if_neg (by omega), if_neg (by omega), if_neg (by omega)]
    show _ ↔ j = 7 * k % 16
    omega

/-- Settles O21: the table by evaluation, and the permutations by the inverse of the index in each quartile. -/
theorem md5IndexPermutesEachQuartile : Obligations.Md5IndexPermutesEachQuartile := by
  unfold Obligations.Md5IndexPermutesEachQuartile
  refine ⟨by decide, fun q hq k hk => ?_⟩
  have hlt := md5RoundReading_lt q hk
  exact ⟨md5RoundReading q k, hlt, (md5Index_eq_iff hq hlt hk).2 rfl, fun _ hj => (md5Index_eq_iff hq hj hk).1⟩

end Sys2Proof.Machine
end

section
/-! PROOFS. The SHA-256 message scheduler (43_sha256_scheduler.md): the words the load makes of a block, the schedule word one
expansion writes, and the schedule that is complete when the rounds begin. -/

namespace Sys2Proof.Machine

/-- R140: word k of a block, with its four bytes written out. -/
theorem rd_sha256Words (buf : Vector Byte 64) {k : Nat} (hk : k < 16) :
    rd (sha256Words buf) k = rd buf (4 * k) ++ rd buf (4 * k + 1) ++ rd buf (4 * k + 2) ++ rd buf (4 * k + 3) := by
  rw [sha256Words, rd_tab_lt _ hk, be32_append]

/-- R140: W[0..16] are the words of M. -/
theorem rd_loadSha256_w_of_lt (c : HashCore) {t : Nat} (ht : t < 16) :
    rd (loadSha256 c).w t = rd (sha256Words c.buf) t := by
  rw [loadSha256, rd_tab_lt _ (by omega), if_pos ht, sha256Words, rd_tab_lt _ ht]

/-- R140: W[16..64] keeps the previous block's values. -/
theorem rd_loadSha256_w_of_ge (c : HashCore) {t : Nat} (hl : 16 ≤ t) (hu : t < 64) :
    rd (loadSha256 c).w t = rd c.w t := by
  rw [loadSha256, rd_tab_lt _ hu, if_neg (by omega)]

/-- Settles O17: the micro-step is the SHA-256 load, M is `sha256Words` of the buffer, and W starts with the same words. -/
theorem sha256LoadReadsBigEndianWords : Obligations.Sha256LoadReadsBigEndianWords := by
  unfold Obligations.Sha256LoadReadsBigEndianWords
  exact fun c hp ha => ⟨sha256Words c.buf, (loadSha256 c).w, microStep_loadSha256 hp ha,
    fun _ hk => ⟨rd_sha256Words c.buf hk, rd_loadSha256_w_of_lt c hk⟩, fun _ => rd_loadSha256_w_of_ge c⟩

/-- R10: a rotation by less than the word's width, as two shifts. -/
theorem rotateRight_eq_shifts (x : Word) {n : Nat} (hn : n < 32) : x.rotateRight n = x >>> n ||| x <<< (32 - n) := by
  rw [BitVec.rotateRight_def, Nat.mod_eq_of_lt hn]

/-- R141: σ0 by shifts. -/
theorem smallSigma0_eq_shifts (x : Word) :
    smallSigma0 x = (x >>> 7 ||| x <<< (32 - 7)) ^^^ (x >>> 18 ||| x <<< (32 - 18)) ^^^ x >>> 3 := by
  rw [smallSigma0, rotateRight_eq_shifts x (by decide), rotateRight_eq_shifts x (by decide)]

/-- R141: σ1 by shifts. -/
theorem smallSigma1_eq_shifts (x : Word) :
    smallSigma1 x = (x >>> 17 ||| x <<< (32 - 17)) ^^^ (x >>> 19 ||| x <<< (32 - 19)) ^^^ x >>> 10 := by
  rw [smallSigma1, rotateRight_eq_shifts x (by decide), rotateRight_eq_shifts x (by decide)]

/-- R143: what an expansion does to W, the schedule word t written to W[t]. -/
def writeScheduleWord (w : Vector Word 64) (t : Nat) : Vector Word 64 := wr w t (scheduleWord w t)

theorem rd_writeScheduleWord_same (w : Vector Word 64) {t : Nat} (ht : t < 64) :
    rd (writeScheduleWord w t) t = scheduleWord w t := rd_wr_same w _ ht

theorem rd_writeScheduleWord_ne (w : Vector Word 64) {t k : Nat} (hk : k ≠ t) :
    rd (writeScheduleWord w t) k = rd w k := rd_wr_ne w _ hk

/-- R143: the expansion of an enabled state, whose PHASE is EXPAND. -/
theorem expandStep_eq {c : HashCore} (hp : c.phase = .expand) :
    expandStep c = { c with
      w := writeScheduleWord c.w c.rnd.toNat, rnd := c.rnd + 1#7
      phase := if c.rnd.toNat = 63 then .seed else .expand } := by
  rw [expandStep, hp, writeScheduleWord]

/-- Settles O19: the micro-step is the expansion, which writes one word of W, and the sigmas are rotations written by shifts. -/
theorem expandWritesOneScheduleWord : Obligations.ExpandWritesOneScheduleWord := by
  unfold Obligations.ExpandWritesOneScheduleWord
  intro c hp ha hl hu t rotr s0 s1
  refine ⟨writeScheduleWord c.w t, (microStep_expand hp ha hl hu).trans (congrArg some (expandStep_eq hp)), ?_,
    fun k _ hk => rd_writeScheduleWord_ne c.w hk⟩
  rw [rd_writeScheduleWord_same c.w (Nat.lt_succ_of_le hu), scheduleWord, smallSigma0_eq_shifts, smallSigma1_eq_shifts]

/-- Expansions leave the words of W they do not write. -/
theorem rd_foldl_writeScheduleWord_of_notMem {ts : List Nat} (w : Vector Word 64) {k : Nat} (hk : k ∉ ts) :
    rd (ts.foldl writeScheduleWord w) k = rd w k := by
  induction ts generalizing w with
  | nil => rfl
  | cons t ts ih =>
    rw [List.foldl_cons, ih _ (List.not_mem_of_not_mem_cons hk), rd_writeScheduleWord_ne w (List.ne_of_not_mem_cons hk)]

/-- R142, R143: after a run of expansions at ascending indices each word it wrote meets the recurrence, for the recurrence reads
words below its own and the later expansions write words above it. -/
theorem rd_foldl_writeScheduleWord_of_mem {ts : List Nat} (w : Vector Word 64) (hts : ts.Pairwise (· < ·)) {t : Nat}
    (ht : t ∈ ts) (hl : 16 ≤ t) (hu : t < 64) :
    rd (ts.foldl writeScheduleWord w) t = scheduleWord (ts.foldl writeScheduleWord w) t := by
  induction ts generalizing w with
  | nil => cases ht
  | cons t' ts ih =>
    obtain ⟨hlater, hts⟩ := List.pairwise_cons.mp hts
    rw [List.foldl_cons]
    rcases List.mem_cons.mp ht with rfl | ht
    · have kept {k : Nat} (hk : k ≤ t) :
          rd (ts.foldl writeScheduleWord (writeScheduleWord w t)) k = rd (writeScheduleWord w t) k :=
        rd_foldl_writeScheduleWord_of_notMem _ fun hmem => (hlater k hmem).not_ge hk
      calc
        _ = scheduleWord w t := by rw [kept le_rfl, rd_writeScheduleWord_same w hu]
        _ = _ := scheduleWord_congr hl fun k hk => by rw [kept hk.le, rd_writeScheduleWord_ne w hk.ne]
    · exact ih _ hts ht

/-- R200: the schedule of a block is what the expansions at 16 to 63 make of any W that begins with the block's words. -/
theorem sha256Schedule_eq_foldl (blk : Vector Byte 64) :
    sha256Schedule blk = (List.range' 16 48).foldl writeScheduleWord (tab 64 fun t => be32 blk (4 * t)) :=
  (sha256Schedule_eq _ blk fun _ ht => rd_tab_lt _ (by omega)).symm

/-- R200: the direct words of the schedule. -/
theorem rd_sha256Schedule_of_lt (blk : Vector Byte 64) {t : Nat} (ht : t < 16) :
    rd (sha256Schedule blk) t = be32 blk (4 * t) := by
  have hmem : t ∉ List.range' 16 48 := by rw [List.mem_range'_1]; omega
  rw [sha256Schedule_eq_foldl, rd_foldl_writeScheduleWord_of_notMem _ hmem, rd_tab_lt _ (by omega)]

/-- R142: the other words of the schedule meet the recurrence. -/
theorem rd_sha256Schedule_of_ge (blk : Vector Byte 64) {t : Nat} (hl : 16 ≤ t) (hu : t < 64) :
    rd (sha256Schedule blk) t = scheduleWord (sha256Schedule blk) t := by
  have hmem : t ∈ List.range' 16 48 := List.mem_range'_1.mpr ⟨hl, hu⟩
  rw [sha256Schedule_eq_foldl]
  exact rd_foldl_writeScheduleWord_of_mem _ (List.pairwise_lt_range' 1) hmem hl hu

/-- Settles O20: the load and the 48 expansions leave in W the schedule of COMPRESS, whose words are known. -/
theorem scheduleIsCompleteBeforeTheRounds : Obligations.ScheduleIsCompleteBeforeTheRounds := by
  unfold Obligations.ScheduleIsCompleteBeforeTheRounds
  exact fun c hp ha => ⟨_, microRun_load_expand c hp ha, rfl, rfl, rfl, rfl, fun _ => rd_sha256Schedule_of_lt c.buf,
    fun _ => rd_sha256Schedule_of_ge c.buf, rfl⟩

end Sys2Proof.Machine
end

section
/-! PROOFS. The MD5 compression engine (44_md5_compression.md): the round constants, and one round with its function, index and
rotate amounts written out. -/

namespace Sys2Proof.Machine

/-- Settles O59: the four parts of the model's table, read entry by entry. -/
theorem md5ConstantsAreTheTable : Obligations.Md5ConstantsAreTheTable := by
  unfold Obligations.Md5ConstantsAreTheTable
  rfl

/-- R151: the round function of MD5, with the quartiles as bounds on the round. -/
theorem md5Fn_eq (j : Nat) (b c d : Word) : md5Fn j b c d =
    if j < 16 then (b &&& c) ||| (~~~b &&& d)
    else if j < 32 then (d &&& b) ||| (~~~d &&& c)
    else if j < 48 then b ^^^ c ^^^ d
    else c ^^^ (b ||| ~~~d) := by
  unfold md5Fn
  match hq : j / 16 with
  | 0 =>
    rw [if_pos (by omega)]
    rfl
  | 1 =>
    rw [if_neg (by omega), if_pos (by omega)]
    rfl
  | 2 =>
    rw [if_neg (by omega), if_neg (by omega), if_pos (by omega)]
    rfl
  | _ + 3 =>
    rw [if_neg (by omega), if_neg (by omega), if_neg (by omega)]
    rfl

/-- R153: the row of rotate amounts of each quartile, as a table of four. -/
theorem shiftRow_eq_getD {q : Nat} (hq : q < 4) :
    shiftRow q = [[7, 12, 17, 22], [5, 9, 14, 20], [4, 11, 16, 23], [6, 10, 15, 21]].getD q [] := by
  match q, hq with
  | 0, _ => rfl
  | 1, _ => rfl
  | 2, _ => rfl
  | 3, _ => rfl

theorem sMd5_lt {j : Nat} (hj : j ≤ 63) : sMd5 j < 32 := by
  revert j
  decide

/-- R10: a left rotation by less than the word's width, as two shifts. -/
theorem rotateLeft_eq_shifts (x : Word) {n : Nat} (hn : n < 32) : x.rotateLeft n = x <<< n ||| x >>> (32 - n) := by
  rw [BitVec.rotateLeft_def, Nat.mod_eq_of_lt hn]

/-- R154: the sequencing of an enabled round step, whose PHASE is ROUND. -/
theorem nextRound_eq {c : HashCore} (hp : c.phase = .round) :
    nextRound c = { c with rnd := c.rnd + 1#7, phase := if c.rnd.toNat = 63 then .accum else .round } := by
  rw [nextRound, hp]

/-- Settles O23: the micro-step is the round, which puts the four registers of `md5Round` into V[0..4]. -/
theorem md5RoundUpdatesTheTransientRegisters : Obligations.Md5RoundUpdatesTheTransientRegisters := by
  unfold Obligations.Md5RoundUpdatesTheTransientRegisters
  intro c hp ha hu j a b x d fn g amounts n f
  have hg : md5Index j = g := md5Index_eq
  have hn : sMd5 j = n := by rw [sMd5, shiftRow_eq_getD (by omega)]
  let r := md5Round j (rd c.m (md5Index j)) (Md5Regs.get c.v)
  have hb : r.b = b + (f <<< n ||| f >>> (32 - n)) := by
    have hsum : md5Sum j (rd c.m (md5Index j)) (Md5Regs.get c.v) = f := by
      rw [md5Sum, md5Fn_eq, hg]
      rfl
    rw [← hn, ← rotateLeft_eq_shifts f (sMd5_lt hu), ← hsum]
    rfl
  refine ⟨r.put c.v, (microStep_roundMd5 hp ha hu).trans (congrArg some (nextRound_eq hp)), Md5Regs.rd_put r c.v 0,
    (Md5Regs.rd_put r c.v 1).trans hb, Md5Regs.rd_put r c.v 2, Md5Regs.rd_put r c.v 3, fun k hk _ => ?_⟩
  rw [Md5Regs.rd_put, if_neg (by omega), if_neg (by omega), if_neg (by omega), if_neg (by omega)]

end Sys2Proof.Machine
end

section
/-! PROOFS. The SHA-256 compression engine (45_sha256_compression.md): one round with its combinators written out, and the
constant tables as roots of primes. -/

namespace Sys2Proof.Machine

/-- R171: Σ1 by shifts. -/
theorem bigSigma1_eq_shifts (e : Word) : bigSigma1 e =
    (e >>> 6 ||| e <<< (32 - 6)) ^^^ (e >>> 11 ||| e <<< (32 - 11)) ^^^ (e >>> 25 ||| e <<< (32 - 25)) := by
  rw [bigSigma1, rotateRight_eq_shifts e (by decide), rotateRight_eq_shifts e (by decide),
    rotateRight_eq_shifts e (by decide)]

/-- R173: Σ0 by shifts. -/
theorem bigSigma0_eq_shifts (a : Word) : bigSigma0 a =
    (a >>> 2 ||| a <<< (32 - 2)) ^^^ (a >>> 13 ||| a <<< (32 - 13)) ^^^ (a >>> 22 ||| a <<< (32 - 22)) := by
  rw [bigSigma0, rotateRight_eq_shifts a (by decide), rotateRight_eq_shifts a (by decide),
    rotateRight_eq_shifts a (by decide)]

/-- The array of a round's registers: temp1 enters at a and e, and the others move up by one (R170, R176). -/
theorem toList_toArray_sha256Round (i : Nat) (x : Word) (r : Sha256Regs) :
    (sha256Round i x r).toArray.toList =
      [sha256Temp1 i x r + sha256Temp2 r, r.a, r.b, r.c, r.d + sha256Temp1 i x r, r.e, r.f, r.g] := rfl

/-- Settles O24: the micro-step is the round, which puts the eight registers of `sha256Round` into V, and its sums are temp1 and
temp2 once the sigmas are written by shifts. -/
theorem sha256RoundUpdatesTheTransientRegisters : Obligations.Sha256RoundUpdatesTheTransientRegisters := by
  unfold Obligations.Sha256RoundUpdatesTheTransientRegisters
  intro c hp ha hu i a b y d e f g h rotr temp1 temp2
  let r := Sha256Regs.get c.v
  have h1 : sha256Temp1 i (rd c.w i) r = temp1 := by
    rw [sha256Temp1, bigSigma1_eq_shifts]
    rfl
  have h2 : sha256Temp2 r = temp2 := by
    rw [sha256Temp2, bigSigma0_eq_shifts]
    rfl
  refine ⟨(sha256Round i (rd c.w i) r).toArray,
    (microStep_roundSha256 hp ha hu).trans (congrArg some (nextRound_eq hp)), ?_⟩
  rw [toList_toArray_sha256Round, h1, h2]
  rfl

/-- The 64 primes below 312 (R175). -/
def primesBelow312 : List Nat :=
  [2, 3, 5, 7, 11, 13, 17, 19, 23, 29, 31, 37, 41, 43, 47, 53, 59, 61, 67, 71, 73, 79, 83, 89, 97, 101, 103, 107, 109, 113, 127,
   131, 137, 139, 149, 151, 157, 163, 167, 173, 179, 181, 191, 193, 197, 199, 211, 223, 227, 229, 233, 239, 241, 251, 257, 263,
   269, 271, 277, 281, 283, 293, 307, 311]

/-- Below 18² a number is prime when no smaller one of 2 to 17 divides it. -/
theorem filter_trialDivision_eq_primesBelow312 :
    ((List.range 312).filter fun n =>
      decide (2 ≤ n) && (List.range 18).all fun d => decide (d < 2) || decide (n ≤ d) || decide (n % d ≠ 0)) =
      primesBelow312 := by
  decide

/-- R175: each K_SHA256[i], put behind the integer part q, is the cube root of the i-th prime to 32 binary places. -/
theorem kSha256_cubeRoot : ∀ i, i < 64 → ∃ q, q < 8 ∧
    (q * 2 ^ 32 + (kSha256 i).toNat) ^ 3 ≤ primesBelow312.getD i 0 * 2 ^ 96 ∧
    primesBelow312.getD i 0 * 2 ^ 96 < (q * 2 ^ 32 + (kSha256 i).toNat + 1) ^ 3 := by
  decide

/-- R191: each IV_SHA256[i], put behind the integer part q, is the square root of the i-th prime to 32 binary places. -/
theorem ivSha256_squareRoot : ∀ i, i < 8 → ∃ q, q < 8 ∧
    (q * 2 ^ 32 + (rd (iv .sha256) i).toNat) ^ 2 ≤ primesBelow312.getD i 0 * 2 ^ 64 ∧
    primesBelow312.getD i 0 * 2 ^ 64 < (q * 2 ^ 32 + (rd (iv .sha256) i).toNat + 1) ^ 2 := by
  decide

/-- Settles O25: trial division finds the 64 primes, and each entry is its prime's root cut to 32 binary places. -/
theorem sha256TablesAreRootsOfPrimes : Obligations.Sha256TablesAreRootsOfPrimes := by
  unfold Obligations.Sha256TablesAreRootsOfPrimes
  rw [filter_trialDivision_eq_primesBelow312]
  exact ⟨rfl, kSha256_cubeRoot, ivSha256_squareRoot⟩

end Sys2Proof.Machine
end

section
/-! PROOFS. The state accumulator (46_accumulator_digest.md R192 to R195, R200): seeding, accumulation, and the micro-steps of one
block as COMPRESS. -/

namespace Sys2Proof.Machine

variable {c : HashCore}

/-- Every algorithm has the registers below 4. -/
theorem four_le_regCount (a : Alg) : 4 ≤ regCount a := by cases a <;> decide

/-- R192: E_SEED takes V from H in the registers of the algorithm. -/
theorem rd_seedStep_v (c : HashCore) {k : Nat} (hk : k < 8) :
    rd (seedStep c).v k = if k < regCount c.alg then rd c.h k else rd c.v k :=
  rd_tab_lt _ hk

/-- R193: the sums of E_ACCUM, in the registers of the algorithm. -/
theorem rd_addRegs (a : Alg) (h v : Vector Word 8) {k : Nat} (hk : k < 8) :
    rd (addRegs a h v) k = if k < regCount a then rd h k + rd v k else rd h k :=
  rd_tab_lt _ hk

/-- R124: the second tail byte by byte, zeros and length. -/
theorem rd_secondTail (a : Alg) (len : BitVec 64) {i : Nat} (hi : i < 64) :
    rd (secondTail a len) i = if i < 56 then 0x00#8 else (lenField a len).getD (i - 56) 0#8 :=
  rd_tab_lt _ hi

/-- The length field of the second tail stands in its bytes 56 to 63 (R121, R124). -/
theorem rd_secondTail_length (a : Alg) (len : BitVec 64) {n : Nat} (hn : n < 8) :
    rd (secondTail a len) (56 + n) = (lenField a len).getD n 0#8 := by
  rw [rd_secondTail _ _ (by omega), if_neg (by omega), Nat.add_sub_cancel_left]

/-- Settles O22: the micro-step is the seeding. -/
theorem seedCopiesTheRunningState : Obligations.SeedCopiesTheRunningState := by
  unfold Obligations.SeedCopiesTheRunningState
  refine fun c hp => ⟨(seedStep c).v, microStep_seed hp, fun k hk => ?_, fun ha k hl hu => ?_, fun ha k _ hu => ?_⟩
  · have h4 := four_le_regCount c.alg
    rw [rd_seedStep_v c (by omega), if_pos (by omega)]
  · rw [rd_seedStep_v c hu, ha]
    exact if_neg hl.not_gt
  · rw [rd_seedStep_v c hu, ha]
    exact if_pos hu

/-- Settles O26: the micro-step is the accumulation, whose sequencing part is R194's case of PSTATE. -/
theorem accumAddsAndSequences : Obligations.AccumAddsAndSequences := by
  unfold Obligations.AccumAddsAndSequences
  intro c hp
  have hstep := microStep_accum hp
  refine ⟨addRegs c.alg c.h c.v, fun k hk => ?_, fun ha k hl hu => ?_, fun ha k _ hu => ?_, fun hq => ?_, fun hq => ?_,
    fun hq => ⟨secondTail c.alg c.len, ?_, fun i hi => ?_, fun ha n hn => ?_, fun ha n hn => ?_⟩⟩
  · have h4 := four_le_regCount c.alg
    rw [rd_addRegs _ _ _ (by omega), if_pos (by omega)]
  · rw [rd_addRegs _ _ _ hu, ha]
    exact if_neg hl.not_gt
  · rw [rd_addRegs _ _ _ hu, ha]
    exact if_pos hu
  · simp [hstep, accumStep, afterBlock, hq]
  · simp [hstep, accumStep, afterBlock, hq]
  · simp [hstep, accumStep, afterBlock, padSecond, hq]
  · rw [rd_secondTail _ _ (by omega), if_pos hi]
  · rw [rd_secondTail_length _ _ hn, ha, lenField_getD _ _ hn]
  · rw [rd_secondTail_length _ _ hn, ha, lenField_getD _ _ hn]

/-- The MD5 registers of V after E_SEED are those of H (R192). -/
theorem md5Regs_get_seedStep (ha : c.alg = .md5) : Md5Regs.get (seedStep c).v = Md5Regs.get c.h := by
  simp [Md5Regs.get, rd_seedStep_v, ha, regCount]

/-- The SHA-256 registers of V after E_SEED are those of H (R192). -/
theorem sha256Regs_get_seedStep (ha : c.alg = .sha256) : Sha256Regs.get (seedStep c).v = Sha256Regs.get c.h := by
  simp [Sha256Regs.get, rd_seedStep_v, ha, regCount]

/-- E_ACCUM of MD5 does not see V[4..8], which a round keeps (R154, R193). -/
theorem addRegs_md5_put (h v v' : Vector Word 8) (r : Md5Regs) :
    addRegs .md5 h (r.put v) = addRegs .md5 h (r.put v') := by
  refine eq_of_rd fun k hk => ?_
  rw [rd_addRegs _ _ _ hk, rd_addRegs _ _ _ hk]
  refine if_ctx_congr Iff.rfl (fun hlt => ?_) fun _ => rfl
  have hlt : k < 4 := hlt
  rw [Md5Regs.rd_put, Md5Regs.rd_put]
  interval_cases k <;> rfl

/-- A block from SEED on: seeding, the 64 rounds, accumulation (R98). -/
theorem microRun_of_rounds (hp : c.phase = .seed) {v : Vector Word 8}
    (hr : microRun 64 (seedStep c) = some { seedStep c with v := v, rnd := 64#7, phase := .accum }) :
    microRun 66 c = some (accumStep { c with v := v, rnd := 64#7, phase := .accum }) := by
  rw [show 66 = 1 + (64 + 1) from rfl, microRun_add, microRun_one, microStep_seed hp, Option.bind_some, microRun_add, hr,
    Option.bind_some, microRun_one, microStep_accum rfl]
  rfl

/-- The micro-steps of an MD5 block up to the accumulation, whose V adds to H what COMPRESS does (R98, R200). -/
theorem microRun_md5Block (hp : c.phase = .load) (ha : c.alg = .md5) :
    ∃ v, microRun 67 c = some (accumStep { c with m := md5Words c.buf, v := v, rnd := 64#7, phase := .accum }) ∧
      addRegs c.alg c.h v = compress c.alg c.h c.buf := by
  have hload : microRun 67 c = microRun 66 (loadMd5 c) := by
    rw [show 67 = 1 + 66 from rfl, microRun_add, microRun_one, microStep_loadMd5 hp ha, Option.bind_some]
  have hrun := microRun_of_rounds rfl (microRun_md5Rounds (seedStep (loadMd5 c)) rfl ha rfl)
  refine ⟨_, hload.trans hrun, ?_⟩
  rw [md5Regs_get_seedStep (c := loadMd5 c) ha, ha]
  exact addRegs_md5_put ..

/-- The micro-steps of a SHA-256 block up to the accumulation, whose V adds to H what COMPRESS does (R98, R200). -/
theorem microRun_sha256Block (hp : c.phase = .load) (ha : c.alg = .sha256) :
    ∃ v, microRun 115 c = some (accumStep { c with
        m := sha256Words c.buf, w := sha256Schedule c.buf, v := v, rnd := 64#7, phase := .accum }) ∧
      addRegs c.alg c.h v = compress c.alg c.h c.buf := by
  let c₁ : HashCore := { c with m := sha256Words c.buf, w := sha256Schedule c.buf, rnd := 64#7, phase := .seed }
  have hload : microRun 115 c = microRun 66 c₁ := by
    rw [show 115 = 49 + 66 from rfl, microRun_add, microRun_load_expand c hp ha, Option.bind_some]
  have hrun := microRun_of_rounds rfl (microRun_sha256Rounds (seedStep c₁) rfl ha rfl)
  refine ⟨_, hload.trans hrun, ?_⟩
  rw [sha256Regs_get_seedStep (c := c₁) ha, ha]
  rfl

/-- A block of either algorithm up to the accumulation. -/
theorem microRun_block (hp : c.phase = .load) :
    ∃ m w v, microRun (blockSteps c.alg) c = some (accumStep { c with
        m := m, w := w, v := v, rnd := 64#7, phase := .accum }) ∧
      addRegs c.alg c.h v = compress c.alg c.h c.buf := by
  cases ha : c.alg with
  | md5 =>
    obtain ⟨v, hrun, hv⟩ := microRun_md5Block hp ha
    exact ⟨_, c.w, v, ha ▸ hrun, ha ▸ hv⟩
  | sha256 =>
    obtain ⟨v, hrun, hv⟩ := microRun_sha256Block hp ha
    exact ⟨_, _, v, ha ▸ hrun, ha ▸ hv⟩

/-- Settles O29: the run ends in an accumulation, and what that leaves is R193's and R194's. -/
theorem oneBlockRunComputesCompress : Obligations.OneBlockRunComputesCompress := by
  unfold Obligations.OneBlockRunComputesCompress
  intro c hp
  obtain ⟨m, w, v, hrun, hv⟩ := microRun_block hp
  refine ⟨_, hrun, ?_⟩
  simp +contextual [accumStep, hv, afterBlock_phase, afterBlock_pstate, afterBlock_buf]

end Sys2Proof.Machine
end

section
/-! PROOFS. The digest bytes and their text (46_accumulator_digest.md R196, R197). -/

namespace Sys2Proof.Machine

/-- Pieces of one length m put together: element m * k + n is the n-th of the k-th piece. -/
theorem getElem?_flatMap_of_length {α β : Type} {f : α → List β} {m : Nat} (hf : ∀ x, (f x).length = m) (l : List α)
    (k : Nat) {n : Nat} (hn : n < m) : (l.flatMap f)[m * k + n]? = l[k]?.bind fun x => (f x)[n]? := by
  induction l generalizing k with
  | nil => rfl
  | cons x l ih =>
    rw [List.flatMap_cons]
    cases k with
    | zero => rw [List.getElem?_append_left (by rw [hf]; omega)]; simp
    | succ k =>
      have hidx : m * (k + 1) + n - m = m * k + n := by rw [Nat.mul_succ]; omega
      rw [List.getElem?_append_right (by rw [hf, Nat.mul_succ]; omega), hf, hidx, ih, List.getElem?_cons_succ]

theorem length_leBytes {w : Nat} (n : Nat) (x : BitVec w) : (leBytes n x).length = n := by simp [leBytes]

theorem length_beBytes {w : Nat} (n : Nat) (x : BitVec w) : (beBytes n x).length = n := by
  rw [beBytes, List.length_reverse, length_leBytes]

theorem getElem?_leBytes {w m n : Nat} (x : BitVec w) (hn : n < m) : (leBytes m x)[n]? = some (byteOf x n) := by
  simp [leBytes, hn]

theorem getElem?_beBytes {w m n : Nat} (x : BitVec w) (hn : n < m) :
    (beBytes m x)[n]? = some (byteOf x (m - 1 - n)) := by
  rw [beBytes, List.getElem?_reverse (by rwa [length_leBytes]), length_leBytes, getElem?_leBytes x (by omega)]

theorem length_digestBytes (a : Alg) (h : Vector Word 8) : (digestBytes a h).length = 4 * regCount a := by
  cases a <;> rfl

/-- R196: byte n of register k of an MD5 digest, the least significant first. -/
theorem getD_digestBytes_md5 (h : Vector Word 8) {k n : Nat} (hk : k < 4) (hn : n < 4) :
    (digestBytes .md5 h).getD (4 * k + n) 0#8 = byteOf (rd h k) n := by
  rw [digestBytes, List.getD_eq_getElem?_getD, getElem?_flatMap_of_length (fun _ => length_leBytes 4 _) _ k hn,
    List.getElem?_range hk, Option.bind_some, getElem?_leBytes _ hn, Option.getD_some]

/-- R196: byte n of register k of a SHA-256 digest, the most significant first. -/
theorem getD_digestBytes_sha256 (h : Vector Word 8) {k n : Nat} (hk : k < 8) (hn : n < 4) :
    (digestBytes .sha256 h).getD (4 * k + n) 0#8 = byteOf (rd h k) (3 - n) := by
  rw [digestBytes, List.getD_eq_getElem?_getD, getElem?_flatMap_of_length (fun _ => length_beBytes 4 _) _ k hn,
    List.getElem?_range hk, Option.bind_some, getElem?_beBytes _ hn, Option.getD_some]

/-- R197: the sixteen digits of HEX in the order of their values. -/
def hexDigits : List Char := ['0', '1', '2', '3', '4', '5', '6', '7', '8', '9', 'a', 'b', 'c', 'd', 'e', 'f']

theorem getElem?_hexDigits {n : Nat} (hn : n < 16) : hexDigits[n]? = some (hexChar n) := by
  have hlt : n < hexDigits.length := hn
  rw [hexChar, ← hexDigits, List.getD_eq_getElem _ _ hlt, List.getElem?_eq_getElem hlt]

theorem hexChar_mem_hexDigits {n : Nat} (hn : n < 16) : hexChar n ∈ hexDigits :=
  List.mem_of_getElem? (getElem?_hexDigits hn)

theorem toNat_highNibble (x : Byte) : x.toNat >>> 4 = x.toNat / 16 := Nat.shiftRight_eq_div_pow _ 4

theorem toNat_lowNibble (x : Byte) : (x &&& 0x0F#8).toNat = x.toNat % 16 :=
  (BitVec.toNat_and x _).trans (Nat.and_two_pow_sub_one_eq_mod x.toNat 4)

/-- R197: the text of a byte sequence, the high nibble of each byte first. -/
theorem hexText_eq (bytes : List Byte) :
    hexText bytes = bytes.flatMap fun x => [hexChar (x.toNat / 16), hexChar (x.toNat % 16)] := by
  simp only [hexText, toNat_highNibble, toNat_lowNibble]

theorem length_hexText (bytes : List Byte) : (hexText bytes).length = 2 * bytes.length := by
  rw [hexText_eq, List.length_flatMap]
  simp [Nat.mul_comm]

theorem highNibble_lt (x : Byte) : x.toNat / 16 < 16 := by
  have := x.isLt
  omega

theorem lowNibble_lt (x : Byte) : x.toNat % 16 < 16 := Nat.mod_lt _ (by decide)

theorem hexText_subset_hexDigits (bytes : List Byte) : hexText bytes ⊆ hexDigits := by
  intro x hx
  rw [hexText_eq, List.mem_flatMap] at hx
  obtain ⟨b, -, hx⟩ := hx
  rcases List.mem_pair.mp hx with rfl | rfl
  · exact hexChar_mem_hexDigits (highNibble_lt b)
  · exact hexChar_mem_hexDigits (lowNibble_lt b)

/-- R197: the two characters of byte k. -/
theorem getElem?_hexText {bytes : List Byte} {k : Nat} (hk : k < bytes.length) :
    (hexText bytes)[2 * k]? = hexDigits[(bytes.getD k 0#8).toNat / 16]? ∧
      (hexText bytes)[2 * k + 1]? = hexDigits[(bytes.getD k 0#8).toNat % 16]? := by
  have hchar {n : Nat} (hn : n < 2) := getElem?_flatMap_of_length (m := 2)
    (f := fun x : Byte => [hexChar (x.toNat / 16), hexChar (x.toNat % 16)]) (fun _ => rfl) bytes k hn
  rw [hexText_eq, List.getD_eq_getElem _ _ hk, getElem?_hexDigits (highNibble_lt _), getElem?_hexDigits (lowNibble_lt _)]
  simpa [hk] using And.intro (hchar (n := 0) (by decide)) (hchar (n := 1) (by decide))

/-- Settles O33: the digest is the registers' bytes in order, and its text each byte's two digits in order. -/
theorem digestTextHasItsLengthAndAlphabet : Obligations.DigestTextHasItsLengthAndAlphabet := by
  unfold Obligations.DigestTextHasItsLengthAndAlphabet
  intro a h digits
  refine ⟨?_, ?_, fun x hx => hexText_subset_hexDigits _ hx, ?_, ?_, fun k hk => getElem?_hexText hk⟩
  · rw [length_digestBytes]
    cases a <;> rfl
  · rw [digestText, length_hexText, length_digestBytes]
    cases a <;> rfl
  · rintro rfl k n hk hn
    exact getD_digestBytes_md5 h hk hn
  · rintro rfl k n hk hn
    exact getD_digestBytes_sha256 h hk hn

end Sys2Proof.Machine
end

section
/-! PROOFS. Runs of the machine by single steps (Host/Core.lean): the engine comes to rest, so that the host gets its turn, and the
loop WAIT (30_encoding.md R80) goes on until the engine rests, whatever the schedule (70_reset_and_hazards.md R251). -/

namespace Sys2Proof.Machine

variable {s s' t : State} {c c' : HashCore} {i : Instr} {rest : List HostOp}

/-- Some number of steps of the machine lead from one state to another. -/
abbrev Reaches : State → State → Prop := Relation.ReflTransGen fun s t => step s = .next t

theorem run_succ_of_step (h : step s = .next s') (n : Nat) :
    Host.Core.run Sys2Proof.core (n + 1) s = Host.Core.run Sys2Proof.core n s' := by
  have h : Sys2Proof.core.step s = .next s' := h
  simp only [Host.Core.run, h]

/-- Reached states are those a run of the machine answers. -/
theorem exists_run_of_reaches (h : Reaches s t) : ∃ n, Host.Core.run Sys2Proof.core n s = .next t := by
  induction h using Relation.ReflTransGen.head_induction_on with
  | refl => exact ⟨0, rfl⟩
  | head hstep _ ih =>
    obtain ⟨n, hn⟩ := ih
    exact ⟨n + 1, (run_succ_of_step hstep n).trans hn⟩

/-- How many micro-steps a block still needs at most, by PHASE and RND (R98). -/
def Phase.stepsLeft (rnd : Nat) : Phase → Nat
  | .idle => 0
  | .load => 115
  | .expand => 130 - rnd
  | .seed => 66
  | .round => 65 - rnd
  | .accum => 1
  | .done => 0

/-- How many micro-steps the engine still has at most: those of the block in progress, and a second tail block. -/
def HashCore.work (c : HashCore) : Nat :=
  c.phase.stepsLeft c.rnd.toNat + if c.pstate = .tail2 then 115 else 0

theorem stepsLeft_nextRound_lt (hp : c.phase = .round) (hu : c.rnd.toNat ≤ 63) :
    (nextRound c).phase.stepsLeft (nextRound c).rnd.toNat < c.phase.stepsLeft c.rnd.toNat := by
  rcases phase_rnd_of_count (nextRound c) .accum hu rfl rfl with ⟨-, hp', hr'⟩ | ⟨-, hp', hr'⟩ <;>
    rw [hp', hr', hp] <;> simp only [Phase.stepsLeft] <;> omega

theorem stepsLeft_expandStep_lt (hp : c.phase = .expand) (hu : c.rnd.toNat ≤ 63) :
    (expandStep c).phase.stepsLeft (expandStep c).rnd.toNat < c.phase.stepsLeft c.rnd.toNat := by
  rcases phase_rnd_of_count (expandStep c) .seed hu rfl rfl with ⟨-, hp', hr'⟩ | ⟨-, hp', hr'⟩ <;>
    rw [hp', hr', hp] <;> simp only [Phase.stepsLeft] <;> omega

/-- R98, R251: every micro-step brings the engine nearer to its rest: one step nearer to the end of the block, or, at that end,
into a second tail block. -/
theorem MicroEffect.work_lt (h : MicroEffect c c') : c'.work < c.work := by
  cases h with
  | loadMd5 hp => exact Nat.add_lt_add_right (by rw [hp]; exact (by decide : 66 < 115)) _
  | loadSha256 hp => exact Nat.add_lt_add_right (by rw [hp]; exact (by decide : 114 < 115)) _
  | expand hp _ _ hu => exact Nat.add_lt_add_right (stepsLeft_expandStep_lt hp hu) _
  | seed hp => exact Nat.add_lt_add_right (by rw [hp]; exact (by decide : 65 < 66)) _
  | roundMd5 hp _ hu => exact Nat.add_lt_add_right (stepsLeft_nextRound_lt hp hu) _
  | roundSha256 hp _ hu => exact Nat.add_lt_add_right (stepsLeft_nextRound_lt hp hu) _
  | accum hp =>
    cases hq : c.pstate <;>
      simp [HashCore.work, accumStep, afterBlock_phase, afterBlock_pstate, hq, hp, Phase.stepsLeft]

/-- A host with something to do gets its turn, at the latest when the engine rests (R251). -/
theorem exists_reaches_hostTurn (hs : s.Inv) (hh : s.host ≠ []) :
    ∃ t, Reaches s t ∧ nextAgent t = some .host ∧ t.host = s.host := by
  induction hw : s.hc.work using Nat.strong_induction_on generalizing s with
  | _ w ih =>
    match ha : nextAgent s with
    | none => exact absurd (nextAgent_eq_none.mp ha).2 hh
    | some .host => exact ⟨s, .refl, ha, rfl⟩
    | some .engine =>
      obtain ⟨c, hc⟩ := microStep_of_busy hs (busy_of_nextAgent_engine ha)
      have hm := microStep_effect hc
      obtain ⟨t, hr, hat, hht⟩ := ih c.work (hw ▸ hm.work_lt) (s := s.useTurn.setHc c) (inv_microEffect hs hm) hh rfl
      exact ⟨t, .head (engineTurnIsOneMicroStep s c ha hc) hr, hat, hht⟩

/-- WAIT is over when the engine has done its micro-steps and rests, however its polls fall between them: a poll uses a turn of the
schedule (R80, R251). -/
theorem exists_reaches_waited {n : Nat} (hh : s.host = .wait :: rest) (hr : microRun n s.hc = some c')
    (hb : c'.busy = false) : ∃ t, Reaches s t ∧ t.host = rest ∧ t.hc = c' := by
  induction hk : n + s.sched.length using Nat.strong_induction_on generalizing s n with
  | _ k ih =>
    have hne : s.host ≠ [] := by simp [hh]
    cases n with
    | zero =>
      obtain rfl : s.hc = c' := Option.some.inj hr
      have hstep := (waitPollsStatusUntilNotBusy s rest (nextAgent_of_host_only hb hne) hh).2 hb
      exact ⟨_, .single hstep, rfl, rfl⟩
    | succ n =>
      match hc : microStep s.hc with
      | none => simp [microRun, hc] at hr
      | some c =>
        have hbs := (microStep_effect hc).busy
        have hr' : microRun n c = some c' := by simpa [microRun, hc] using hr
        match ha : nextAgent s with
        | none => exact absurd (nextAgent_eq_none.mp ha).2 hne
        | some .engine =>
          have hlen : s.sched.tail.length ≤ s.sched.length := by simp
          obtain ⟨t, hrt, ht⟩ := ih (n + s.sched.tail.length) (by omega) (s := s.useTurn.setHc c) hh hr' rfl
          exact ⟨t, .head (engineTurnIsOneMicroStep s c ha hc) hrt, ht⟩
        | some .host =>
          have hsched : s.sched ≠ [] := by
            rintro hs
            rw [nextAgent_of_both hbs hne, hs] at ha
            cases ha
          have hlen : s.sched.tail.length < s.sched.length := by
            rw [List.length_tail]
            exact Nat.sub_lt (List.length_pos_of_ne_nil hsched) Nat.one_pos
          have hstep := (waitPollsStatusUntilNotBusy s rest ha hh).1 hbs
          obtain ⟨t, hrt, ht⟩ := ih (n + 1 + s.sched.tail.length) (by omega) (s := s.useTurn.logRead s.hc.status) hh hr rfl
          exact ⟨t, .head hstep hrt, ht⟩

/-- A step that leaves WAIT at the head of the host's list, and the wait after it. -/
theorem exists_reaches_waited_of_step {n : Nat} (hs : step s = .next s') (hh : s'.host = .wait :: rest)
    (hr : microRun n s'.hc = some c') (hb : c'.busy = false) : ∃ t, Reaches s t ∧ t.host = rest ∧ t.hc = c' := by
  obtain ⟨t, hrt, ht⟩ := exists_reaches_waited hh hr hb
  exact ⟨t, .head hs hrt, ht⟩

/-- At the host's turn a command line is its command (R79, R90). -/
theorem step_instrOp (ha : nextAgent s = some .host) (hh : s.host = instrOp i :: rest) :
    step s = exec i { s.useTurn with host := rest } := by
  have hd : decode (encode i).1 (encode i).2 = .ok i := decodeOfEncodeIsTheInstruction i (by cases i <;> rfl)
  rw [step_portWrite (p := (encode i).1) ha hh (by cases i <;> simp [encode, portReg, regOffset]), portWrite_of_ok hd]

end Sys2Proof.Machine
end

section
/-! PROOFS. A message in the core (46_accumulator_digest.md R198, 41_padding.md R125): what HASHCORE holds after INIT and the bytes
absorbed so far, what one more byte and what FINAL make of it, and the sequence HASH as a run. -/

namespace Sys2Proof.Machine

variable {a : Alg} {msg : List Byte} {c : HashCore} {b : Byte}

/-- Block k of a byte sequence (R125). -/
def blockAt (bytes : List Byte) (k : Nat) : Vector Byte 64 := tab 64 fun i => bytes.getD (64 * k + i) 0#8

theorem blocksOf_eq_map_blockAt (bytes : List Byte) :
    blocksOf bytes = (List.range (bytes.length / 64)).map (blockAt bytes) := rfl

/-- More bytes leave the full blocks as they are. -/
theorem blockAt_append {k : Nat} (hk : k < msg.length / 64) (more : List Byte) :
    blockAt (msg ++ more) k = blockAt msg k := by
  refine eq_of_rd fun i hi => ?_
  rw [blockAt, rd_tab_lt _ hi, blockAt, rd_tab_lt _ hi, List.getD_append _ _ _ _ (by omega)]

/-- A byte that does not complete the block in progress leaves the full blocks as they are. -/
theorem blocksOf_append_of_ne (h : msg.length % 64 ≠ 63) (b : Byte) : blocksOf (msg ++ [b]) = blocksOf msg := by
  have hlen : (msg ++ [b]).length / 64 = msg.length / 64 := by rw [List.length_append, List.length_singleton]; omega
  rw [blocksOf_eq_map_blockAt, hlen]
  exact List.map_congr_left fun k hk => blockAt_append (List.mem_range.mp hk) [b]

/-- A byte that completes the block in progress adds it to the full blocks. -/
theorem blocksOf_append_of_eq (h : msg.length % 64 = 63) (b : Byte) :
    blocksOf (msg ++ [b]) = blocksOf msg ++ [blockAt (msg ++ [b]) (msg.length / 64)] := by
  have hlen : (msg ++ [b]).length / 64 = msg.length / 64 + 1 := by
    rw [List.length_append, List.length_singleton]; omega
  rw [blocksOf_eq_map_blockAt, hlen, List.range_succ, List.map_append, List.map_singleton]
  congr 1
  exact List.map_congr_left fun k hk => blockAt_append (List.mem_range.mp hk) [b]

/-- R198: the running state after the full blocks of a byte sequence. -/
def runningRegs (a : Alg) (bytes : List Byte) : Vector Word 8 := (blocksOf bytes).foldl (compress a) (iv a)

/-- HASHCORE at rest with the bytes of `msg` absorbed since INIT: the full blocks are in H and BLKCNT, the rest is in BUF (R28, R29,
R30, R198). -/
structure Absorbed (a : Alg) (msg : List Byte) (c : HashCore) : Prop where
  alg : c.alg = a
  initd : c.initd = true
  phase : c.phase = .idle
  pstate : c.pstate = .absorb
  err : c.err = false
  len : c.len = BitVec.ofNat 64 msg.length
  fill : c.fill.toNat = msg.length % 64
  buf : ∀ i, i < msg.length % 64 → rd c.buf i = msg.getD (64 * (msg.length / 64) + i) 0#8
  blkcnt : c.blkcnt = BitVec.ofNat 32 (msg.length / 64)
  h : c.h = runningRegs a msg

/-- HASHCORE in DONE with the digest of `msg` (R198, R30, R122). -/
structure Digested (a : Alg) (msg : List Byte) (c : HashCore) : Prop where
  phase : c.phase = .done
  alg : c.alg = a
  err : c.err = false
  len : c.len = BitVec.ofNat 64 msg.length
  blkcnt : c.blkcnt = BitVec.ofNat 32 ((msg.length + 8) / 64 + 1)
  h : c.h = digestRegs a msg

theorem Absorbed.busy_eq_false (h : Absorbed a msg c) : c.busy = false := by simp [HashCore.busy, h.phase, Phase.busy]

theorem Digested.busy_eq_false (h : Digested a msg c) : c.busy = false := by simp [HashCore.busy, h.phase, Phase.busy]

/-- R93: after INIT nothing is absorbed. -/
theorem absorbed_initCore (a : Alg) : Absorbed a [] (initCore a) where
  alg := rfl
  initd := rfl
  phase := rfl
  pstate := rfl
  err := rfl
  len := rfl
  fill := rfl
  buf i hi := absurd hi (Nat.not_lt_zero i)
  blkcnt := rfl
  h := rfl

/-- R94: BUF holds the message bytes of the block in progress, the new byte included. -/
theorem Absorbed.rd_buf_take (h : Absorbed a msg c) (b : Byte) {i : Nat} (hi : i ≤ msg.length % 64) :
    rd (takeBytes [b] c).buf i = (msg ++ [b]).getD (64 * (msg.length / 64) + i) 0#8 := by
  have hf := h.fill
  rcases Nat.lt_or_eq_of_le hi with hlt | rfl
  · rw [rd_takeBytes_outside (.inl (by omega)), h.buf i hlt, List.getD_append _ _ _ _ (by omega)]
  · have hlast : rd (takeBytes [b] c).buf c.fill.toNat = b := by
      simpa [takeBytes] using rd_wrBytes_inside [b] c.buf c.fill.toNat (n := 0) Nat.one_pos c.fill.isLt
    rw [← hf, hlast, hf, Nat.div_add_mod, List.getD_append_right _ _ _ _ le_rfl, Nat.sub_self]
    rfl

/-- A byte that does not complete the block is absorbed at once. -/
theorem Absorbed.take_of_ne (h : Absorbed a msg c) (hne : msg.length % 64 ≠ 63) (b : Byte) :
    Absorbed a (msg ++ [b]) (takeBytes [b] c) := by
  have hf := h.fill
  have hlen : (msg ++ [b]).length = msg.length + 1 := by simp
  have hdiv : (msg.length + 1) / 64 = msg.length / 64 := by omega
  have hmod : (msg.length + 1) % 64 = msg.length % 64 + 1 := by omega
  obtain ⟨hfull, -⟩ | ⟨-, hp, hfill⟩ := takeBytes_cases [b] c
  · rw [List.length_singleton] at hfull
    omega
  · exact {
      alg := by simp [takeBytes, h.alg]
      initd := by simp [takeBytes, h.initd]
      phase := hp.trans h.phase
      pstate := by simp [takeBytes, h.pstate]
      err := by simp [takeBytes, h.err]
      len := by simp [takeBytes, h.len, BitVec.ofNat_add]
      fill := by
        rw [hfill, hlen, hmod, ← hf, List.length_singleton, BitVec.toNat_add, BitVec.toNat_ofNat]
        omega
      buf := fun i hi => by
        rw [hlen, hmod] at hi
        rw [h.rd_buf_take b (by omega), hlen, hdiv]
      blkcnt := by simp [takeBytes, h.blkcnt, hdiv]
      h := by simp [takeBytes, h.h, runningRegs, blocksOf_append_of_ne hne] }

/-- A byte that completes the block is absorbed when the block's micro-steps are done (R29, R195). -/
theorem Absorbed.take_of_eq (h : Absorbed a msg c) (heq : msg.length % 64 = 63) (b : Byte) :
    ∃ n c', microRun n (takeBytes [b] c) = some c' ∧ Absorbed a (msg ++ [b]) c' := by
  have hf := h.fill
  have hlen : (msg ++ [b]).length = msg.length + 1 := by simp
  have hdiv : (msg.length + 1) / 64 = msg.length / 64 + 1 := by omega
  have hmod : (msg.length + 1) % 64 = 0 := by omega
  obtain ⟨-, hp, hfill⟩ | ⟨hnot, -⟩ := takeBytes_cases [b] c
  · have hbuf : (takeBytes [b] c).buf = blockAt (msg ++ [b]) (msg.length / 64) := by
      refine eq_of_rd fun i hi => ?_
      rw [h.rd_buf_take b (by omega), blockAt, rd_tab_lt _ hi]
    obtain ⟨c', hrun, hh, hblk, -, halg, hinitd, hlen', hfill', herr, -, hq, -, -⟩ :=
      oneBlockRunComputesCompress (takeBytes [b] c) hp
    obtain ⟨hp', hq', -⟩ := hq (by simp [takeBytes, h.pstate])
    refine ⟨_, c', hrun, ?_⟩
    exact {
      alg := by simp [halg, takeBytes, h.alg]
      initd := by simp [hinitd, takeBytes, h.initd]
      phase := hp'
      pstate := hq'
      err := by simp [herr, takeBytes, h.err]
      len := by simp [hlen', takeBytes, h.len, BitVec.ofNat_add]
      fill := by rw [hfill', hfill, hlen, hmod]; rfl
      buf := fun i hi => by
        rw [hlen, hmod] at hi
        exact absurd hi (Nat.not_lt_zero i)
      blkcnt := by simp [hblk, takeBytes, h.blkcnt, hdiv, BitVec.ofNat_add]
      h := by
        rw [hh, hbuf, runningRegs, blocksOf_append_of_eq heq, List.foldl_append]
        simp [takeBytes, h.alg, h.h, runningRegs] }
  · rw [List.length_singleton] at hnot
    omega

/-- One more byte, and the micro-steps it starts (R29, R94). -/
theorem Absorbed.take (h : Absorbed a msg c) (b : Byte) :
    ∃ n c', microRun n (takeBytes [b] c) = some c' ∧ Absorbed a (msg ++ [b]) c' := by
  by_cases hl : msg.length % 64 = 63
  · exact h.take_of_eq hl b
  · exact ⟨0, _, rfl, h.take_of_ne hl b⟩

/-- FINAL and the micro-steps of the one tail block it builds (R123). -/
theorem Absorbed.final_of_le (h : Absorbed a msg c) (hl : msg.length % 64 ≤ 55) :
    ∃ n c', microRun n (finalCore c) = some c' ∧ Digested a msg c' := by
  have hblocks := (tailBlocksAreTheEndOfThePaddedStream a msg c.buf h.buf).1 hl
  obtain ⟨c', hrun, hh, hblk, -, halg, -, hlen, -, herr, -, -, -, hq⟩ := oneBlockRunComputesCompress (finalCore c) rfl
  rw [finalCore_of_le (h.fill ▸ hl)] at hrun hh hblk halg hlen herr hq ⊢
  refine ⟨_, c', hrun, (hq rfl).1, halg.trans h.alg, herr.trans h.err, hlen.trans h.len, ?_, ?_⟩
  · rw [hblk, h.blkcnt, show (msg.length + 8) / 64 = msg.length / 64 by omega, BitVec.ofNat_add]
  · rw [hh, digestRegs, hblocks, List.foldl_append]
    simp [h.alg, h.len, h.fill, h.h, runningRegs, blocksOf]

/-- FINAL and the micro-steps of the two tail blocks, the second built by E_ACCUM (R123, R124). -/
theorem Absorbed.final_of_ge (h : Absorbed a msg c) (hl : 56 ≤ msg.length % 64) :
    ∃ n c', microRun n (finalCore c) = some c' ∧ Digested a msg c' := by
  have hblocks := (tailBlocksAreTheEndOfThePaddedStream a msg c.buf h.buf).2 hl
  obtain ⟨c₁, hrun₁, hh₁, hblk₁, -, halg₁, -, hlen₁, -, herr₁, -, -, hq₁, -⟩ :=
    oneBlockRunComputesCompress (finalCore c) rfl
  rw [finalCore_of_ge (h.fill ▸ hl)] at hrun₁ hh₁ hblk₁ halg₁ hlen₁ herr₁ hq₁ ⊢
  obtain ⟨hp₁, hq₁, hbuf₁⟩ := hq₁ rfl
  obtain ⟨c₂, hrun₂, hh₂, hblk₂, -, halg₂, -, hlen₂, -, herr₂, -, -, -, hq₂⟩ := oneBlockRunComputesCompress c₁ hp₁
  refine ⟨_, c₂, (microRun_add _ _ _).trans (by rw [hrun₁, Option.bind_some, hrun₂]), (hq₂ hq₁).1,
    halg₂.trans (halg₁.trans h.alg), herr₂.trans (herr₁.trans h.err), hlen₂.trans (hlen₁.trans h.len), ?_, ?_⟩
  · rw [hblk₂, hblk₁, h.blkcnt, show (msg.length + 8) / 64 = msg.length / 64 + 1 by omega, BitVec.ofNat_add,
      BitVec.ofNat_add]
  · rw [hh₂, hbuf₁, hh₁, halg₁, digestRegs, hblocks, List.foldl_append]
    simp [h.alg, h.len, h.fill, h.h, runningRegs, blocksOf]

/-- FINAL and the micro-steps it starts reach the digest (R96, R125). -/
theorem Absorbed.final (h : Absorbed a msg c) : ∃ n c', microRun n (finalCore c) = some c' ∧ Digested a msg c' := by
  rcases Nat.lt_or_ge (msg.length % 64) 56 with hl | hl
  · exact h.final_of_le (Nat.le_of_lt_succ hl)
  · exact h.final_of_ge hl

section HashRun
variable {s : State} {rest : List HostOp}

/-- ABSORB and WAIT at the head of the host's list (R80). -/
theorem exists_reaches_absorb_wait (h : Absorbed a msg s.hc) (hh : s.host = instrOp (.absorb b) :: .wait :: rest) :
    ∃ t, Reaches s t ∧ t.host = rest ∧ Absorbed a (msg ++ [b]) t.hc := by
  obtain ⟨n, c', hrun, hc'⟩ := h.take b
  have ha : nextAgent s = some .host := nextAgent_of_host_only h.busy_eq_false (by simp [hh])
  have hstep := (step_instrOp ha hh).trans (exec_absorb_accepted b h.initd h.phase)
  obtain ⟨t, hr, hht, rfl⟩ := exists_reaches_waited_of_step hstep rfl hrun hc'.busy_eq_false
  exact ⟨t, hr, hht, hc'⟩

/-- `ABSORBS`: an ABSORB and a WAIT for each byte (R80). -/
theorem exists_reaches_absorbs (bytes : List Byte) (h : Absorbed a msg s.hc) (hh : s.host = absorbsOps bytes ++ rest) :
    ∃ t, Reaches s t ∧ t.host = rest ∧ Absorbed a (msg ++ bytes) t.hc := by
  induction bytes generalizing s msg with
  | nil => exact ⟨s, .refl, hh, by simpa using h⟩
  | cons b bytes ih =>
    obtain ⟨u, hru, hhu, hu⟩ := exists_reaches_absorb_wait (b := b) (rest := absorbsOps bytes ++ rest) h hh
    obtain ⟨t, hrt, hht, ht⟩ := ih hu hhu
    exact ⟨t, hru.trans hrt, hht, by simpa using ht⟩

/-- FINAL and WAIT at the head of the host's list (R80). -/
theorem exists_reaches_final_wait (h : Absorbed a msg s.hc) (hh : s.host = instrOp .final :: .wait :: rest) :
    ∃ t, Reaches s t ∧ t.host = rest ∧ Digested a msg t.hc := by
  obtain ⟨n, c', hrun, hc'⟩ := h.final
  have ha : nextAgent s = some .host := nextAgent_of_host_only h.busy_eq_false (by simp [hh])
  have hstep := (step_instrOp ha hh).trans (exec_final_accepted h.initd h.phase)
  obtain ⟨t, hr, hht, rfl⟩ := exists_reaches_waited_of_step hstep rfl hrun hc'.busy_eq_false
  exact ⟨t, hr, hht, hc'⟩

/-- INIT at the head of the host's list, whatever the engine is doing (R93, R251). -/
theorem exists_reaches_init (hs : s.Inv) (hh : s.host = instrOp (.init a) :: rest) :
    ∃ t, Reaches s t ∧ t.host = rest ∧ Absorbed a [] t.hc := by
  obtain ⟨u, hr, ha, hhu⟩ := exists_reaches_hostTurn hs (by simp [hh])
  exact ⟨_, hr.tail (step_instrOp ha (hhu.trans hh)), rfl, absorbed_initCore a⟩

end HashRun

/-- Settles O57: the sequence is INIT, the ABSORBs with their WAITs, and FINAL with its WAIT, each a run of its own. -/
theorem hashSequenceReachesTheDigest : Obligations.HashSequenceReachesTheDigest := by
  unfold Obligations.HashSequenceReachesTheDigest
  intro a msg s hs hh
  obtain ⟨s₁, hr₁, hh₁, h₁⟩ := exists_reaches_init hs hh
  obtain ⟨s₂, hr₂, hh₂, h₂⟩ := exists_reaches_absorbs msg h₁ hh₁
  obtain ⟨t, hr₃, hht, ht⟩ := exists_reaches_final_wait h₂ hh₂
  obtain ⟨n, hn⟩ := exists_run_of_reaches ((hr₁.trans hr₂).trans hr₃)
  exact ⟨n, t, hn, hht, ht.phase, ht.alg, ht.err, ht.len, ht.blkcnt, ht.h⟩

end Sys2Proof.Machine
end

section
/-! PROOFS. The error record, the machine at rest, and several HASHCOREs side by side (60_exceptions.md R212, R225, R223). -/

namespace Sys2Proof.Machine

/-- With no error recorded the error primitive records its code (R212). -/
theorem raiseErr_of_no_err {c : HashCore} (e : ErrCode) (h : c.err = false) :
    raiseErr e c = { c with err := true, errcode := e } := by
  simp [raiseErr, h]

/-- Settles O14, by whether an error is recorded already. -/
theorem errorPrimitiveKeepsTheFirstError : Obligations.ErrorPrimitiveKeepsTheFirstError := by
  unfold Obligations.ErrorPrimitiveKeepsTheFirstError
  exact fun e _ => ⟨raiseErr_of_no_err e, raiseErr_of_err e⟩

/-- Settles O45: neither agent can move, and a step without an agent is the state itself. -/
theorem idleMachineKeepsItsState : Obligations.IdleMachineKeepsItsState := by
  unfold Obligations.IdleMachineKeepsItsState
  exact fun _ hh hb => step_of_none (nextAgent_eq_none.mpr ⟨hb, hh⟩)

/-- What a step of the k-th HASHCORE can do: nothing where k names none, and otherwise one step of that one, put back in
its place (R223). -/
theorem stepAt_cases {k : Nat} {y y' : System} (h : y.stepAt k = .next y') :
    (y.cores[k]? = none ∧ y' = y) ∨
      ∃ s t, y.cores[k]? = some s ∧ step s = .next t ∧ y' = ⟨y.cores.set k t⟩ := by
  unfold System.stepAt at h
  split at h
  case h_1 hk =>
    cases h
    exact .inl ⟨hk, rfl⟩
  case h_2 s hk =>
    split at h
    case h_1 t ht =>
      cases h
      exact .inr ⟨s, t, hk, ht, rfl⟩
    all_goals cases h

/-- Settles O58: the system is the same, or only its k-th place is written. -/
theorem coresShareNoState : Obligations.CoresShareNoState := by
  unfold Obligations.CoresShareNoState
  intro k y y' h
  obtain ⟨-, rfl⟩ | ⟨s, t, -, -, rfl⟩ := stepAt_cases h
  · exact ⟨rfl, fun _ _ => rfl⟩
  · exact ⟨List.length_set, fun j hj => List.getElem?_set_ne hj.symm⟩

end Sys2Proof.Machine
end

section
/-! PROOFS. Reset and the engine's rest (70_reset_and_hazards.md R243, R251). -/

namespace Sys2Proof.Machine

/-- R93: INIT puts its registers in place of HASHCORE, whatever the state before. -/
theorem exec_init (a : Alg) (s : State) : exec (.init a) s = .next (s.setHc (initCore a)) := rfl

/-- Settles O8: INIT from any state puts the same registers in place of HASHCORE. -/
theorem initIsASoftReset : Obligations.InitIsASoftReset := by
  unfold Obligations.InitIsASoftReset
  exact fun a s => ⟨_, _, exec_init a s, exec_init a State.reset, rfl⟩

variable {c : HashCore}

/-- The block in progress needs at most the 115 micro-steps of a SHA-256 block (R98): in EXPAND at most 114 of them, because
RND is at least 16 there (R44). -/
theorem stepsLeft_le_of_inv (h : c.Inv) : c.phase.stepsLeft c.rnd.toNat ≤ 115 := by
  cases hp : c.phase with
  | expand =>
    obtain ⟨-, hl, -⟩ := h.expand_sha256 hp
    simp only [Phase.stepsLeft]
    omega
  | idle | load | seed | round | accum | done => simp only [Phase.stepsLeft]; omega

/-- The engine has at most two blocks of work: the one in progress and a second tail block. -/
theorem work_le_of_inv (h : c.Inv) : c.work ≤ 230 := by
  have hs := stepsLeft_le_of_inv h
  unfold HashCore.work
  split <;> omega

/-- Left alone, the engine rests after at most as many micro-steps as it has work: while BUSY it has a micro-step, and each
one lessens the work. -/
theorem exists_microRun_rest (h : c.Inv) : ∃ n c', n ≤ c.work ∧ microRun n c = some c' ∧ c'.busy = false := by
  induction hw : c.work using Nat.strong_induction_on generalizing c with
  | _ w ih =>
    cases hb : c.busy with
    | false => exact ⟨0, c, Nat.zero_le _, rfl, hb⟩
    | true =>
      obtain ⟨c₁, hc⟩ := microStep_of_busy h hb
      have hm := microStep_effect hc
      have hlt : c₁.work < w := hw ▸ hm.work_lt
      obtain ⟨n, c', hn, hr, hb'⟩ := ih c₁.work hlt (inv_microEffect h hm) rfl
      exact ⟨n + 1, c', Nat.le_trans (Nat.succ_le_succ hn) hlt, by simp only [microRun, hc, hr], hb'⟩

/-- Settles O30: the engine rests within its work, which is at most two SHA-256 blocks. -/
theorem engineComesToRest : Obligations.EngineComesToRest := by
  unfold Obligations.EngineComesToRest
  intro c h
  obtain ⟨n, c', hn, hr, hb⟩ := exists_microRun_rest h
  exact ⟨n, c', hn.trans (work_le_of_inv h), hr, hb⟩

end Sys2Proof.Machine
end
